-- ==== Sys2Proof/Word.lean ====
section
/-! DEFINITION. The word and byte types of the block (spec 00_scope R7, R9). -/

namespace Sys2Proof

/-- "an unsigned 16-bit integer; all arithmetic on it is modulo 2^16" (R9): `BitVec 16`'s own arithmetic. -/
abbrev Word := BitVec 16

/-- The unit of the input and output capabilities (R12, R13) and of an image stream (R191). -/
abbrev Byte := BitVec 8

end Sys2Proof
end

