-- ==== Sys2Proof/Syntax.lean ====
section
/-! DEFINITION. The instructions: one constructor per row of spec/opcode_table.json (30_encoding R61, R70). -/

namespace Sys2Proof

/-- The eight general registers (R20). -/
inductive Reg where
  | r0 | r1 | r2 | r3 | r4 | r5 | r6 | r7
  deriving DecidableEq, Repr, Inhabited

/-- One instruction. Fields are the spec's: DR, SR, SR1, SR2, BaseR as register names, immediates and offsets as the
instruction's own bits, n/z/p as truth values. Bits the decoder ignores (R67) are not kept. -/
inductive Instr where
  /-- ADD, register form (R100). -/
  | addReg (dr sr1 sr2 : Reg)
  /-- ADD, immediate form (R100). -/
  | addImm (dr sr1 : Reg) (imm5 : BitVec 5)
  /-- AND, register form (R101). -/
  | andReg (dr sr1 sr2 : Reg)
  /-- AND, immediate form (R101). -/
  | andImm (dr sr1 : Reg) (imm5 : BitVec 5)
  /-- NOT (R102). -/
  | not (dr sr : Reg)
  /-- BR (R110). -/
  | br (n z p : Bool) (offset9 : BitVec 9)
  /-- JMP with BaseR other than R7 (R111); with R7 the word is RET's. -/
  | jmp (baseR : Reg)
  /-- RET: JMP with BaseR = 7 (R75, R111). -/
  | ret
  /-- JSR (R112). -/
  | jsr (offset11 : BitVec 11)
  /-- JSRR (R113). -/
  | jsrr (baseR : Reg)
  /-- LD (R120). -/
  | ld (dr : Reg) (offset9 : BitVec 9)
  /-- LDI (R121). -/
  | ldi (dr : Reg) (offset9 : BitVec 9)
  /-- LDR (R122). -/
  | ldr (dr baseR : Reg) (offset6 : BitVec 6)
  /-- LEA (R123). -/
  | lea (dr : Reg) (offset9 : BitVec 9)
  /-- ST (R124). -/
  | st (sr : Reg) (offset9 : BitVec 9)
  /-- STI (R125). -/
  | sti (sr : Reg) (offset9 : BitVec 9)
  /-- STR (R126). -/
  | str (sr baseR : Reg) (offset6 : BitVec 6)
  /-- RTI (R140). -/
  | rti
  /-- RES (R141). -/
  | res
  /-- TRAP x20 (R152). -/
  | trapGetc
  /-- TRAP x21 (R154). -/
  | trapOut
  /-- TRAP x22 (R155). -/
  | trapPuts
  /-- TRAP x23 (R156). -/
  | trapIn
  /-- TRAP x24 (R157). -/
  | trapPutsp
  /-- TRAP x25 (R158). -/
  | trapHalt
  /-- TRAP with any other vector (R159). -/
  | trapUnknown (trapvect8 : BitVec 8)
  deriving DecidableEq, Repr

end Sys2Proof
end

