-- ==== Sys2Proof/WellFormed.lean ====
section
/-! DEFINITION. Which terms of `Instr` are instructions. The field types admit every register and every immediate
(R64); two rows share their words with another row and are kept apart here. -/

namespace Sys2Proof

/-- The vectors that have a routine of their own: 0x20 to 0x25 (R66, R151). -/
def knownVector (v : BitVec 8) : Bool := 0x20#8 ≤ v && v ≤ 0x25#8

/-- `jmp` with R7 is RET (R75); `trapUnknown` is for the vectors outside the table of R151 (R159). -/
def Instr.wellFormed : Instr → Bool
  | .jmp baseR => decide (baseR ≠ .r7)
  | .trapUnknown v => !knownVector v
  | .addReg _ _ _ | .addImm _ _ _ | .andReg _ _ _ | .andImm _ _ _ | .not _ _ => true
  | .br _ _ _ _ | .ret | .jsr _ | .jsrr _ => true
  | .ld _ _ | .ldi _ _ | .ldr _ _ _ | .lea _ _ | .st _ _ | .sti _ _ | .str _ _ _ => true
  | .rti | .res => true
  | .trapGetc | .trapOut | .trapPuts | .trapIn | .trapPutsp | .trapHalt => true

/-- A well-formed instruction. -/
abbrev WellFormed (i : Instr) : Prop := i.wellFormed = true

end Sys2Proof
end

