-- ==== Sys2Proof/Decode.lean ====
section
/-! DEFINITION. The decoder (30_encoding R60 to R67, R70, R83) and the encoder written from the same formats.
Opcode numbers, the positions marked † in R61 and the vectors are the spec's decisions D2, D3, D6 (log entry 5). -/

namespace Sys2Proof

/-! ### Fields -/

/-- The 3-bit register field (R64). -/
def Reg.ofBits (b : BitVec 3) : Reg :=
  match b.toNat with
  | 0 => .r0
  | 1 => .r1
  | 2 => .r2
  | 3 => .r3
  | 4 => .r4
  | 5 => .r5
  | 6 => .r6
  | _ => .r7

def Reg.bits : Reg → BitVec 3
  | .r0 => 0
  | .r1 => 1
  | .r2 => 2
  | .r3 => 3
  | .r4 => 4
  | .r5 => 5
  | .r6 => 6
  | .r7 => 7

/-- `instr[15:12]` (R60). -/
def opcodeOf (w : Word) : BitVec 4 := w.extractLsb' 12 4

/-- `instr[11:9]`: DR, or SR of a store (R61). -/
def drOf (w : Word) : Reg := Reg.ofBits (w.extractLsb' 9 3)

/-- `instr[8:6]`: SR1, SR of NOT, BaseR (R61). -/
def sr1Of (w : Word) : Reg := Reg.ofBits (w.extractLsb' 6 3)

/-- `instr[2:0]`: SR2 (R61). -/
def sr2Of (w : Word) : Reg := Reg.ofBits (w.extractLsb' 0 3)

/-- `instr[4:0]` (R63). -/
def imm5Of (w : Word) : BitVec 5 := w.extractLsb' 0 5

/-- `instr[5:0]` (R63). -/
def offset6Of (w : Word) : BitVec 6 := w.extractLsb' 0 6

/-- `instr[8:0]` (R63). -/
def offset9Of (w : Word) : BitVec 9 := w.extractLsb' 0 9

/-- `instr[10:0]` (R63). -/
def offset11Of (w : Word) : BitVec 11 := w.extractLsb' 0 11

/-- `instr[7:0]` (R63). -/
def trapvect8Of (w : Word) : BitVec 8 := w.extractLsb' 0 8

/-! ### Decoder -/

/-- JMP, RET among them (R75, R111). -/
def decodeJmp (base : Reg) : Instr :=
  match base with
  | .r7 => .ret
  | .r0 => .jmp .r0
  | .r1 => .jmp .r1
  | .r2 => .jmp .r2
  | .r3 => .jmp .r3
  | .r4 => .jmp .r4
  | .r5 => .jmp .r5
  | .r6 => .jmp .r6

/-- The vector table of R151. -/
def decodeTrap (v : BitVec 8) : Instr :=
  match v.toNat with
  | 0x20 => .trapGetc
  | 0x21 => .trapOut
  | 0x22 => .trapPuts
  | 0x23 => .trapIn
  | 0x24 => .trapPutsp
  | 0x25 => .trapHalt
  | _ => .trapUnknown v

/-- The opcode map of R70. Total: every word is an instruction (R71, R83). -/
def decode (w : Word) : Instr :=
  match (opcodeOf w).toNat with
  | 0x0 => .br (w.getLsbD 11) (w.getLsbD 10) (w.getLsbD 9) (offset9Of w)
  | 0x1 => if w.getLsbD 5 then .addImm (drOf w) (sr1Of w) (imm5Of w) else .addReg (drOf w) (sr1Of w) (sr2Of w)
  | 0x2 => .ld (drOf w) (offset9Of w)
  | 0x3 => .st (drOf w) (offset9Of w)
  | 0x4 => if w.getLsbD 11 then .jsr (offset11Of w) else .jsrr (sr1Of w)
  | 0x5 => if w.getLsbD 5 then .andImm (drOf w) (sr1Of w) (imm5Of w) else .andReg (drOf w) (sr1Of w) (sr2Of w)
  | 0x6 => .ldr (drOf w) (sr1Of w) (offset6Of w)
  | 0x7 => .str (drOf w) (sr1Of w) (offset6Of w)
  | 0x8 => .rti
  | 0x9 => .not (drOf w) (sr1Of w)
  | 0xA => .ldi (drOf w) (offset9Of w)
  | 0xB => .sti (drOf w) (offset9Of w)
  | 0xC => decodeJmp (sr1Of w)
  | 0xD => .res
  | 0xE => .lea (drOf w) (offset9Of w)
  | _ => decodeTrap (trapvect8Of w)

/-- Why a byte sequence is no instruction: only when it does not hold one whole word. -/
inductive DecodeError where
  /-- Fewer than two bytes. Raised by `decodeBytes` alone; safe. -/
  | truncated
  deriving DecidableEq, Repr

/-- The instruction at the head of a byte sequence in the order of an image (R48, R191: high byte first), and the rest. -/
def decodeBytes : List Byte → Except DecodeError (Instr × List Byte)
  | hi :: lo :: rest => .ok (decode (hi ++ lo), rest)
  | [_] => .error .truncated
  | [] => .error .truncated

/-- The instruction read from an instruction whose bits are `w`, in the numbering of spec/opcode_table.json: one word,
bit 0 its least significant. The bits above `nbits` are zero; nothing is longer than 16 bits (R60, R73). -/
def decodeTableWord (nbits w : Nat) : Option Instr :=
  if nbits ≤ 16 then some (decode (BitVec.ofNat 16 (w % 2 ^ nbits))) else none

/-! ### Encoder -/

/-- Opcode over the twelve operand bits (R60). -/
def word (op : BitVec 4) (operands : BitVec 12) : Word := op ++ operands

def bit (b : Bool) : BitVec 1 := BitVec.ofBool b

/-- Formats OP_REG, OP_IMM, BASE, PCREL (R61). -/
def fmtOpReg (op : BitVec 4) (d s t : Reg) : Word := word op (d.bits ++ s.bits ++ 0#3 ++ t.bits)
def fmtOpImm (op : BitVec 4) (d s : Reg) (i : BitVec 5) : Word := word op (d.bits ++ s.bits ++ 1#1 ++ i)
def fmtBase (op : BitVec 4) (d s : Reg) (i : BitVec 6) : Word := word op (d.bits ++ s.bits ++ i)
def fmtPcRel (op : BitVec 4) (d : Reg) (i : BitVec 9) : Word := word op (d.bits ++ i)
def fmtTrap (v : BitVec 8) : Word := word 0xF (0#4 ++ v)

/-- The word of an instruction, ignored bits as an assembler writes them (R67: zeros, NOT's [5:0] ones). -/
def encode : Instr → Word
  | .addReg dr sr1 sr2 => fmtOpReg 0x1 dr sr1 sr2
  | .addImm dr sr1 imm5 => fmtOpImm 0x1 dr sr1 imm5
  | .andReg dr sr1 sr2 => fmtOpReg 0x5 dr sr1 sr2
  | .andImm dr sr1 imm5 => fmtOpImm 0x5 dr sr1 imm5
  | .not dr sr => word 0x9 (dr.bits ++ sr.bits ++ 0b111111#6)
  | .br n z p off => word 0x0 (bit n ++ bit z ++ bit p ++ off)
  | .jmp base => word 0xC (0#3 ++ base.bits ++ 0#6)
  | .ret => 0xC1C0
  | .jsr off => word 0x4 (1#1 ++ off)
  | .jsrr base => word 0x4 (0#3 ++ base.bits ++ 0#6)
  | .ld dr off => fmtPcRel 0x2 dr off
  | .ldi dr off => fmtPcRel 0xA dr off
  | .ldr dr base off => fmtBase 0x6 dr base off
  | .lea dr off => fmtPcRel 0xE dr off
  | .st sr off => fmtPcRel 0x3 sr off
  | .sti sr off => fmtPcRel 0xB sr off
  | .str sr base off => fmtBase 0x7 sr base off
  | .rti => 0x8000
  | .res => 0xD000
  | .trapGetc => fmtTrap 0x20
  | .trapOut => fmtTrap 0x21
  | .trapPuts => fmtTrap 0x22
  | .trapIn => fmtTrap 0x23
  | .trapPutsp => fmtTrap 0x24
  | .trapHalt => fmtTrap 0x25
  | .trapUnknown v => fmtTrap v

/-! ### The opcode table, for statements about the decoder -/

/-- The bits of an instruction's word that its format names (R61); the others are ignored (R67). -/
def Instr.usedBits : Instr → Word
  | .addReg _ _ _ | .andReg _ _ _ => 0xFFE7
  | .addImm _ _ _ | .andImm _ _ _ => 0xFFFF
  | .not _ _ => 0xFFC0
  | .br _ _ _ _ => 0xFFFF
  | .jmp _ | .ret => 0xF1C0
  | .jsr _ => 0xFFFF
  | .jsrr _ => 0xF9C0
  | .ld _ _ | .ldi _ _ | .lea _ _ | .st _ _ | .sti _ _ => 0xFFFF
  | .ldr _ _ _ | .str _ _ _ => 0xFFFF
  | .rti | .res => 0xF000
  | .trapGetc | .trapOut | .trapPuts | .trapIn | .trapPutsp | .trapHalt | .trapUnknown _ => 0xF0FF

/-- The opcode of an instruction (R70). -/
def Instr.opcode : Instr → BitVec 4
  | .br _ _ _ _ => 0x0
  | .addReg _ _ _ | .addImm _ _ _ => 0x1
  | .ld _ _ => 0x2
  | .st _ _ => 0x3
  | .jsr _ | .jsrr _ => 0x4
  | .andReg _ _ _ | .andImm _ _ _ => 0x5
  | .ldr _ _ _ => 0x6
  | .str _ _ _ => 0x7
  | .rti => 0x8
  | .not _ _ => 0x9
  | .ldi _ _ => 0xA
  | .sti _ _ => 0xB
  | .jmp _ | .ret => 0xC
  | .res => 0xD
  | .lea _ _ => 0xE
  | .trapGetc | .trapOut | .trapPuts | .trapIn | .trapPutsp | .trapHalt | .trapUnknown _ => 0xF

/-- The mnemonic of an instruction's row. -/
def Instr.mnemonic : Instr → String
  | .addReg _ _ _ | .addImm _ _ _ => "ADD"
  | .andReg _ _ _ | .andImm _ _ _ => "AND"
  | .not _ _ => "NOT"
  | .br _ _ _ _ => "BR"
  | .jmp _ => "JMP"
  | .ret => "RET"
  | .jsr _ => "JSR"
  | .jsrr _ => "JSRR"
  | .ld _ _ => "LD"
  | .ldi _ _ => "LDI"
  | .ldr _ _ _ => "LDR"
  | .lea _ _ => "LEA"
  | .st _ _ => "ST"
  | .sti _ _ => "STI"
  | .str _ _ _ => "STR"
  | .rti => "RTI"
  | .res => "RES"
  | .trapGetc => "TRAP_GETC"
  | .trapOut => "TRAP_OUT"
  | .trapPuts => "TRAP_PUTS"
  | .trapIn => "TRAP_IN"
  | .trapPutsp => "TRAP_PUTSP"
  | .trapHalt => "TRAP_HALT"
  | .trapUnknown _ => "TRAP__unknown_vector"

/-- One row of spec/opcode_table.json: a word matches when `word & mask == match` (30_encoding, preamble). -/
structure OpcodeRow where
  mnemonic : String
  pattern : Word
  mask : Word
  deriving DecidableEq, Repr

/-- The rows of the registers' and branches' formats. RET stands before JMP, whose words it takes a part of. -/
def opcodeRowsOperate : List OpcodeRow :=
  [⟨"ADD", 0x1000, 0xF020⟩, ⟨"ADD", 0x1020, 0xF020⟩, ⟨"AND", 0x5000, 0xF020⟩, ⟨"AND", 0x5020, 0xF020⟩,
   ⟨"NOT", 0x9000, 0xF000⟩, ⟨"BR", 0x0000, 0xF000⟩, ⟨"RET", 0xC1C0, 0xF1C0⟩, ⟨"JMP", 0xC000, 0xF000⟩,
   ⟨"JSR", 0x4800, 0xF800⟩, ⟨"JSRR", 0x4000, 0xF800⟩]

def opcodeRowsMemory : List OpcodeRow :=
  [⟨"LD", 0x2000, 0xF000⟩, ⟨"LDI", 0xA000, 0xF000⟩, ⟨"LDR", 0x6000, 0xF000⟩, ⟨"LEA", 0xE000, 0xF000⟩,
   ⟨"ST", 0x3000, 0xF000⟩, ⟨"STI", 0xB000, 0xF000⟩, ⟨"STR", 0x7000, 0xF000⟩,
   ⟨"RTI", 0x8000, 0xF000⟩, ⟨"RES", 0xD000, 0xF000⟩]

/-- The rows of TRAP. The last one "applies only when no vector row matches". -/
def opcodeRowsTrap : List OpcodeRow :=
  [⟨"TRAP_GETC", 0xF020, 0xF0FF⟩, ⟨"TRAP_OUT", 0xF021, 0xF0FF⟩, ⟨"TRAP_PUTS", 0xF022, 0xF0FF⟩,
   ⟨"TRAP_IN", 0xF023, 0xF0FF⟩, ⟨"TRAP_PUTSP", 0xF024, 0xF0FF⟩, ⟨"TRAP_HALT", 0xF025, 0xF0FF⟩,
   ⟨"TRAP__unknown_vector", 0xF000, 0xF000⟩]

def opcodeTable : List OpcodeRow := opcodeRowsOperate ++ opcodeRowsMemory ++ opcodeRowsTrap

/-- The first row a word matches. -/
def tableMnemonic (w : Word) : Option String :=
  (opcodeTable.find? fun row => w &&& row.mask == row.pattern).map OpcodeRow.mnemonic

end Sys2Proof
end

