-- ==== Sys2Proof/Config.lean ====
section
/-! DEFINITION. What the spec fixes as a named parameter (00_scope R7), and the free values. -/

namespace Sys2Proof

/-- The three condition flags (R23). -/
inductive Flag where
  | pos
  | zro
  | neg
  deriving DecidableEq, Repr, Inhabited

/-- INPUT_BYTE_EXT (R163): how an input byte becomes a word. -/
inductive ByteExt where
  | zero
  | sign
  deriving DecidableEq, Repr, Inhabited

/-- The default of PC_START (R7, R31), decision D31. -/
def Config.pcStart : Word := 0x3000

/-- The default of KBSR_ADDR (R7, R47), decision D31. -/
def Config.kbsrAddr : Word := 0xFE00

/-- The default of KBDR_ADDR (R7, R47), decision D31. -/
def Config.kbdrAddr : Word := 0xFE02

/-- The default of KBSR_READY (R7, R43), decision D13. -/
def Config.kbsrReady : Word := 0x8000

/-- COND_P, COND_Z, COND_N (R7, R23), decision D5: the word COND holds for each flag. -/
def Config.condPos : Word := 0x0001
def Config.condZro : Word := 0x0002
def Config.condNeg : Word := 0x0004

/-- MEM_WORDS (R7, R40). -/
def Config.memWords : Nat := 65536

/-- IN_PROMPT (R156), OPEN by decision D14: no text is given, so it has no body here. DESIGN CHOICE, log entry 4; safe. -/
opaque Config.inPrompt : List Byte

/-- A stretch of the input source's answers in call order: any answers, and then a quiet one, which is no byte or, with
`zeroLast`, the byte zero. `none` is `None` to `InPoll` and `Closed` to `InRead` (R12). Log entry 2. -/
structure Burst where
  answers : List (Option Byte)
  zeroLast : Bool
  deriving DecidableEq, Repr, Inhabited

/-- The answers of a stretch, the quiet one last. -/
def Burst.list (b : Burst) : List (Option Byte) := b.answers ++ [if b.zeroLast then some 0 else none]

/-- What the input source answers next, when the state lists no answer (R12: each answer is a draw): a stretch, or, with
`none`, never a quiet answer again. Free value, log entry 2; safe. -/
opaque Config.inputBurst : Nat → Option Burst

/-- The bytes of an input source that never answers quietly again, each less one. Free value, log entry 2; safe. -/
opaque Config.endlessByte : Nat → Fin 255

/-- What R0 holds after the input closed in GETC or IN (R153: "any 16-bit value"). Free value, log entry 3; safe. -/
opaque Config.closedWord : Nat → Word

/-- Which flag COND holds after the input closed in GETC or IN (R153: "any of POS, ZRO, NEG"). Free value, log entry 3; safe. -/
opaque Config.closedFlag : Nat → Flag

/-- The parameters of R7 that take a value or have an alternative. They are fixed for a machine; State carries them
(log entry 4). -/
structure Params where
  /-- PC_START, the first address fetched (R31, D31). -/
  pcStart : Word
  /-- KBSR_ADDR, the keyboard status cell (R47, D31). -/
  kbsrAddr : Word
  /-- KBDR_ADDR, the keyboard data cell (R47, D31). -/
  kbdrAddr : Word
  /-- KBSR_READY, the status word after a poll that found a byte (R43, D13). -/
  kbsrReady : Word
  /-- IN_PROMPT, written by IN before it reads (R156). -/
  inPrompt : List Byte
  /-- HALT_MESSAGE, written by HALT (R158, D15). -/
  haltMessage : List Byte
  /-- INPUT_BYTE_EXT (R163, D12). -/
  inputByteExt : ByteExt
  /-- TRAP_STRING_READS_POLL (R160, D9). -/
  trapStringReadsPoll : Bool
  /-- JSRR_READ_BASE_FIRST (R113, D8). -/
  jsrrReadBaseFirst : Bool
  deriving DecidableEq, Repr

/-- The defaults of R7; IN_PROMPT has none and stays open. -/
def Params.default : Params where
  pcStart := Config.pcStart
  kbsrAddr := Config.kbsrAddr
  kbdrAddr := Config.kbdrAddr
  kbsrReady := Config.kbsrReady
  inPrompt := Config.inPrompt
  haltMessage := []
  inputByteExt := .zero
  trapStringReadsPoll := false
  jsrrReadBaseFirst := false

end Sys2Proof
end

