-- ==== Sys2Proof/Machine/State.lean ====
section
/-! DEFINITION. The state of the block (10_state), as plain data, and its value at the start of a session (R31). -/

namespace Sys2Proof.Machine

/-- The general registers R0..R7 (R20). -/
structure Regs where
  r0 : Word
  r1 : Word
  r2 : Word
  r3 : Word
  r4 : Word
  r5 : Word
  r6 : Word
  r7 : Word
  deriving DecidableEq, Repr

/-- M[0x0000..0xFFFF] (R40), sparse. Word `a` is kept as two cells, its high byte at `2a` and its low byte at `2a+1`.
DESIGN CHOICE, log entry 1; safe: no operation of the block sees a byte of memory (R48). -/
abbrev Memory := List Host.Cell

/-- What a byte not listed reads as: memory is "initialized to zero" (R31). -/
def Memory.unlisted : Byte := 0

/-- The canonical form: addresses strictly rising and inside the 65536 words, no byte that an unlisted one equals. -/
abbrev Memory.wf (m : Memory) : Prop :=
  m.Pairwise (fun c d => c.1 < d.1) ∧ ∀ c ∈ m, c.1 < 2 * Config.memWords ∧ c.2 ≠ Memory.unlisted

/-- The two string routines (R155, R157). -/
inductive StringKind where
  | puts
  | putsp
  deriving DecidableEq, Repr

/-- Where a string routine stands: which one, and the address of the word it reads next. -/
structure StringLoop where
  kind : StringKind
  ptr : Word
  deriving DecidableEq, Repr

/-- The run state (R27). -/
inductive Run where
  /-- RUNNING. -/
  | running
  /-- HALTED. -/
  | halted
  /-- INPUT_CLOSED. -/
  | inputClosed
  /-- DIVERGED, and the word whose bytes the next step appends (R162). -/
  | diverged (loop : StringLoop)
  deriving DecidableEq, Repr

/-- The model's own view of the input source (R12, log entry 2): no state of the block, but where its answers come from. -/
structure Source where
  /-- The answers of the coming calls that are known in advance, in call order. -/
  listed : List (Option Byte)
  /-- After the listed answers every answer is a non-zero byte. -/
  endless : Bool
  /-- How many free values were taken so far (log entry 3 too). -/
  draws : Nat
  deriving DecidableEq, Repr

/-- The state of the block (10_state, table), and two fields of the model's own. -/
structure State where
  /-- R0..R7 (R20). -/
  regs : Regs
  /-- PC (R22). -/
  pc : Word
  /-- COND, a word of the register file (R23). -/
  cond : Word
  /-- M (R28, R40). -/
  mem : Memory
  /-- The run state (R27). -/
  run : Run
  /-- The output sequence (R29). -/
  out : List Byte
  /-- Model's own: where the answers of the input calls come from (R12). Log entry 2. -/
  input : Source
  /-- Model's own: the parameters of R7, fixed for the machine. Log entry 4. -/
  params : Params
  deriving DecidableEq, Repr

/-- Reasons a step can stop. There is none: "No behaviour of this block is treated as fault" (93_implementation_defined,
R170). -/
inductive Fault
  deriving DecidableEq, Repr

/-- Reasons a step can be refused. -/
inductive Refusal where
  /-- Raised by an arm of `exec` whose instruction has no meaning yet; safe. No arm does. -/
  | notModelled (mnemonic : String)
  deriving DecidableEq, Repr

def Regs.zero : Regs := ⟨0, 0, 0, 0, 0, 0, 0, 0⟩

/-- The start of a session (R31) of a machine with parameters `p`, nothing loaded. `input` as log entry 2 says. -/
def State.start (p : Params) : State where
  regs := Regs.zero
  pc := p.pcStart
  cond := Config.condZro
  mem := []
  run := .running
  out := []
  input := ⟨[], false, 0⟩
  params := p

/-- The start of a session with the parameters' defaults (R7, log entry 4). -/
def State.reset : State := State.start Params.default

end Sys2Proof.Machine
end

