-- ==== Sys2Proof/Machine/Ops.lean ====
section
/-! DEFINITION. The primitives of 00_scope R11: registers, memory, the keyboard cells, input, output, stop, and the entry
of a trap. -/

namespace Sys2Proof.Machine

/-! ### Registers (R11, R20, R22) -/

def Regs.get (x : Regs) : Reg → Word
  | .r0 => x.r0
  | .r1 => x.r1
  | .r2 => x.r2
  | .r3 => x.r3
  | .r4 => x.r4
  | .r5 => x.r5
  | .r6 => x.r6
  | .r7 => x.r7

def Regs.set (x : Regs) (r : Reg) (v : Word) : Regs :=
  match r with
  | .r0 => { x with r0 := v }
  | .r1 => { x with r1 := v }
  | .r2 => { x with r2 := v }
  | .r3 => { x with r3 := v }
  | .r4 => { x with r4 := v }
  | .r5 => { x with r5 := v }
  | .r6 => { x with r6 := v }
  | .r7 => { x with r7 := v }

/-- `x[r]`. -/
def State.reg (s : State) (r : Reg) : Word := s.regs.get r

/-- `x[r] <- v`. -/
def State.setReg (s : State) (r : Reg) (v : Word) : State := { s with regs := s.regs.set r v }

/-- `pc <- target`. -/
def State.setPc (s : State) (target : Word) : State := { s with pc := target }

/-- `stop(s)`, and the return to RUNNING of a finished string. -/
def State.setRun (s : State) (r : Run) : State := { s with run := r }

/-! ### The memory array (R40 to R42) -/

def Memory.byteAt : Memory → Nat → Byte
  | [], _ => Memory.unlisted
  | c :: rest, n => if c.1 = n then c.2 else Memory.byteAt rest n

def Memory.eraseByte (m : Memory) (n : Nat) : Memory := m.filter fun c => decide (c.1 ≠ n)

/-- Puts a cell before the first cell of a higher address. -/
def Memory.insertByte : Memory → Nat → Byte → Memory
  | [], n, b => [(n, b)]
  | c :: rest, n, b => if n < c.1 then (n, b) :: c :: rest else c :: Memory.insertByte rest n b

/-- Writing what an unlisted byte reads as removes the cell, so the form stays canonical. -/
def Memory.setByte (m : Memory) (n : Nat) (b : Byte) : Memory :=
  if b = Memory.unlisted then m.eraseByte n else (m.eraseByte n).insertByte n b

/-- M[a]. -/
def Memory.word (m : Memory) (a : Word) : Word := m.byteAt (2 * a.toNat) ++ m.byteAt (2 * a.toNat + 1)

/-- M[a] <- v. -/
def Memory.setWord (m : Memory) (a v : Word) : Memory :=
  (m.setByte (2 * a.toNat) (v.extractLsb' 8 8)).setByte (2 * a.toNat + 1) (v.extractLsb' 0 8)

/-- `RawRead(a)` (R11): the backing word, no side effect. -/
def State.rawRead (s : State) (a : Word) : Word := s.mem.word a

/-- `MemWrite(a, 1, v)` (R42): unconditional, the keyboard cells included. -/
def State.memWrite (s : State) (a v : Word) : State := { s with mem := s.mem.setWord a v }

/-! ### Input and output (R12, R13) -/

/-- The source once its next answer is known: an empty list is filled with a free stretch, unless from here on every
answer is a byte. DESIGN CHOICE, log entry 2; safe. -/
def Source.supply (x : Source) : Source :=
  match x.listed with
  | _ :: _ => x
  | [] =>
    if x.endless then x
    else
      match Config.inputBurst x.draws with
      | some burst => { x with listed := burst.list, draws := x.draws + 1 }
      | none => { x with endless := true, draws := x.draws + 1 }

/-- The byte a source gives that answers quietly no more. -/
def loudByte (n : Nat) : Byte := BitVec.ofNat 8 ((Config.endlessByte n).val + 1)

def Source.answer (x : Source) : Option Byte :=
  match x.supply.listed with
  | a :: _ => a
  | [] => some (loudByte x.supply.draws)

/-- The source after that answer, which is used up (R12: "A byte that one call returns is consumed"). -/
def Source.consume (x : Source) : Source :=
  match x.supply.listed with
  | _ :: rest => { x.supply with listed := rest }
  | [] => { x.supply with draws := x.supply.draws + 1 }

/-- The answer the next `InPoll` or `InRead` gets. `none` is `None` to `InPoll` and `Closed` to `InRead`. -/
def State.answer (s : State) : Option Byte := s.input.answer

/-- The state after that call. -/
def State.consume (s : State) : State := { s with input := s.input.consume }

/-- `OutWrite(b)` for each byte in turn (R13). -/
def State.outWrites (s : State) (bs : List Byte) : State := { s with out := s.out ++ bs }

/-- `ext_in(b)` (R163). -/
def extIn (p : Params) (b : Byte) : Word :=
  match p.inputByteExt with
  | .zero => b.setWidth 16
  | .sign => b.signExtend 16

/-! ### The keyboard and `MemRead` (R41, R43) -/

/-- The refresh a read of KBSR_ADDR does (R43): one `InPoll`, then KBSR, and KBDR when a byte came. -/
def State.refreshKeyboard (s : State) : State :=
  match s.answer with
  | some b =>
    (s.consume.memWrite s.params.kbsrAddr s.params.kbsrReady).memWrite s.params.kbdrAddr (extIn s.params b)
  | none => s.consume.memWrite s.params.kbsrAddr 0

/-- The state after `MemRead(a, 1)`. -/
def State.afterRead (s : State) (a : Word) : State := if a = s.params.kbsrAddr then s.refreshKeyboard else s

/-- `MemRead(a, 1)` (R41): the word, read after the refresh, and the state. -/
def State.memRead (s : State) (a : Word) : Word × State := ((s.afterRead a).rawRead a, s.afterRead a)

/-! ### Trap entry (R150, R174) -/

/-- What a trap saves: the incremented PC, in R7, and nothing else. There is no return operation (R175): a routine
leaves `pc` as it is. -/
def State.enterTrap (s : State) : State := s.setReg .r7 s.pc

/-! ### Placing a word for the fetch -/

/-- The word stored where the next fetch reads, and the machine RUNNING so that it fetches at all (R80). -/
def State.placeAtPc (s : State) (w : Word) : State := { s with mem := s.mem.setWord s.pc w, run := .running }

end Sys2Proof.Machine
end

