-- ==== Sys2Proof/Machine/Flags.lean ====
section
/-! DEFINITION. The condition flags: `set_flags` (R24) and the branch test (R110). -/

namespace Sys2Proof.Machine

/-- The word COND holds for a flag (R23). -/
def flagWord : Flag → Word
  | .pos => Config.condPos
  | .zro => Config.condZro
  | .neg => Config.condNeg

/-- "value==0 → ZRO; high bit set → NEG; else POS" (R24). -/
def flagOf (v : Word) : Flag := if v = 0 then .zro else if v.msb then .neg else .pos

def State.setCond (s : State) (f : Flag) : State := { s with cond := flagWord f }

/-- `set_flags(v)` (R24). -/
def State.setFlags (s : State) (v : Word) : State := s.setCond (flagOf v)

/-- `x[r] <- v; set_flags(v)`: how every flag-setting instruction ends (R25). -/
def State.writeResult (s : State) (r : Reg) (v : Word) : State := (s.setReg r v).setFlags v

/-- `instr[11:9]` as a word: n is bit 2, z bit 1, p bit 0 (R110). -/
def condField (n z p : Bool) : Word := (BitVec.ofBool n ++ BitVec.ofBool z ++ BitVec.ofBool p).setWidth 16

/-- `(cond_field & cond) != 0` (R110). -/
def taken (n z p : Bool) (cond : Word) : Bool := (condField n z p &&& cond) != 0

end Sys2Proof.Machine
end

