-- ==== Sys2Proof/Machine/Operands.lean ====
section
/-! DEFINITION. Operands and effective addresses (R10, R63, R64, R127). `pc` is the incremented PC (R80). -/

namespace Sys2Proof.Machine

/-- `sext_16` (R10). -/
def sext {n : Nat} (f : BitVec n) : Word := f.signExtend 16

/-- PC-relative: `pc + sext(PCoffset9)` (R127). -/
def State.eaPc (s : State) (off : BitVec 9) : Word := s.pc + sext off

/-- Base plus offset: `x[BaseR] + sext(offset6)` (R127). -/
def State.eaBase (s : State) (base : Reg) (off : BitVec 6) : Word := s.reg base + sext off

/-- The pointer of LDI and STI, a `MemRead` of the PC-relative address (R121, R125, R127). -/
def State.eaIndirect (s : State) (off : BitVec 9) : Word × State := s.memRead (s.eaPc off)

end Sys2Proof.Machine
end

