-- ==== Sys2Proof/Machine/Control.lean ====
section
/-! DEFINITION. BR, JMP, RET, JSR, JSRR (41_control). None writes COND. -/

namespace Sys2Proof.Machine

/-- BR (R110). -/
def execBr (n z p : Bool) (off : BitVec 9) (s : State) : Host.Outcome State Fault Refusal :=
  .next (if taken n z p s.cond then s.setPc (s.eaPc off) else s)

/-- `pc <- x[BaseR]` (R111). -/
def State.jumpTo (s : State) (base : Reg) : State := s.setPc (s.reg base)

/-- JMP (R111). -/
def execJmp (base : Reg) (s : State) : Host.Outcome State Fault Refusal := .next (s.jumpTo base)

/-- RET: JMP with BaseR = 7 (R111). -/
def execRet (s : State) : Host.Outcome State Fault Refusal := .next (s.jumpTo .r7)

/-- `x[7] <- pc`: the link of JSR and JSRR (R112, R113). -/
def State.link (s : State) : State := s.setReg .r7 s.pc

/-- JSR (R112). -/
def execJsr (off : BitVec 11) (s : State) : Host.Outcome State Fault Refusal :=
  .next (s.link.setPc (s.pc + sext off))

/-- JSRR (R113): the base is read after the link is written, or before it with JSRR_READ_BASE_FIRST (D8). -/
def execJsrr (base : Reg) (s : State) : Host.Outcome State Fault Refusal :=
  .next (if s.params.jsrrReadBaseFirst then s.link.setPc (s.reg base) else s.link.jumpTo base)

end Sys2Proof.Machine
end

