-- ==== Sys2Proof/Machine/LoadStore.lean ====
section
/-! DEFINITION. LD, LDI, LDR, LEA, ST, STI, STR (42_load_store). Reads are `MemRead`s and poll at KBSR_ADDR (R45). -/

namespace Sys2Proof.Machine

/-- `v <- MemRead(ea, 1); x[DR] <- v; set_flags(v)`. -/
def State.loadFrom (s : State) (dr : Reg) (ea : Word) : State := (s.memRead ea).2.writeResult dr (s.memRead ea).1

/-- LD (R120). -/
def execLd (dr : Reg) (off : BitVec 9) (s : State) : Host.Outcome State Fault Refusal :=
  .next (s.loadFrom dr (s.eaPc off))

/-- LDI (R121): the pointer read first, then the data read. -/
def execLdi (dr : Reg) (off : BitVec 9) (s : State) : Host.Outcome State Fault Refusal :=
  .next ((s.eaIndirect off).2.loadFrom dr (s.eaIndirect off).1)

/-- LDR (R122): the base is read before DR is written. -/
def execLdr (dr base : Reg) (off : BitVec 6) (s : State) : Host.Outcome State Fault Refusal :=
  .next (s.loadFrom dr (s.eaBase base off))

/-- LEA (R123): no memory access. -/
def execLea (dr : Reg) (off : BitVec 9) (s : State) : Host.Outcome State Fault Refusal :=
  .next (s.writeResult dr (s.eaPc off))

/-- ST (R124). -/
def execSt (sr : Reg) (off : BitVec 9) (s : State) : Host.Outcome State Fault Refusal :=
  .next (s.memWrite (s.eaPc off) (s.reg sr))

/-- STI (R125): the pointer read may poll, then the store. -/
def execSti (sr : Reg) (off : BitVec 9) (s : State) : Host.Outcome State Fault Refusal :=
  .next ((s.eaIndirect off).2.memWrite (s.eaIndirect off).1 ((s.eaIndirect off).2.reg sr))

/-- STR (R126). -/
def execStr (sr base : Reg) (off : BitVec 6) (s : State) : Host.Outcome State Fault Refusal :=
  .next (s.memWrite (s.eaBase base off) (s.reg sr))

end Sys2Proof.Machine
end

