-- ==== Sys2Proof/Machine/Reserved.lean ====
section
/-! DEFINITION. RTI and RES (43_reserved): "an implicit halt rather than an error". -/

namespace Sys2Proof.Machine

/-- RTI (R140). -/
def execRti (s : State) : Host.Outcome State Fault Refusal := .next (s.setRun .halted)

/-- RES (R141). -/
def execRes (s : State) : Host.Outcome State Fault Refusal := .next (s.setRun .halted)

end Sys2Proof.Machine
end

