-- ==== Sys2Proof/Machine/Trap.lean ====
section
/-! DEFINITION. TRAP and its routines (44_trap). Each meaning is `enterTrap` (R150: R7 <- pc) and then the routine. -/

namespace Sys2Proof.Machine

/-! ### Input routines -/

/-- `input_closed()` (R153): R0 and COND are free values, COND one of the three flags. Log entry 3. -/
def State.inputClosed (s : State) : State :=
  { ((s.setReg .r0 (Config.closedWord s.input.draws)).setCond (Config.closedFlag s.input.draws)).setRun .inputClosed with
    input := { s.input with draws := s.input.draws + 1 } }

/-- `InRead()` and what GETC and IN do with its answer; `echo` is what IN writes before R0 (R152, R156). -/
def State.readChar (s : State) (echo : Byte → List Byte) : State :=
  match s.answer with
  | some b => (s.consume.outWrites (echo b)).writeResult .r0 (extIn s.params b)
  | none => s.consume.inputClosed

/-! ### String routines -/

/-- The bytes a non-zero word of a string gives: PUTS its low byte (R155, D11), PUTSP each non-zero byte, low first (R157). -/
def stringBytes (k : StringKind) (w : Word) : List Byte :=
  match k with
  | .puts => [w.extractLsb' 0 8]
  | .putsp => [w.extractLsb' 0 8, w.extractLsb' 8 8].filter fun b => decide (b ≠ 0)

/-- `StrRead(a)` (R160). -/
def State.strRead (s : State) (a : Word) : Word × State :=
  if s.params.trapStringReadsPoll then s.memRead a else (s.rawRead a, s)

/-- The loop of R155 and R157 over at most `fuel` words. Answers the state and, when no zero word was met, the address
of the word to read next (R161: it wraps). -/
def stringLoop (k : StringKind) : Nat → Word → State → State × Option Word
  | 0, a, s => (s, some a)
  | fuel + 1, a, s =>
    if (s.strRead a).1 = 0 then ((s.strRead a).2, none)
    else stringLoop k fuel (a + 1) ((s.strRead a).2.outWrites (stringBytes k (s.strRead a).1))

/-- How many whole passes over memory show every answer that is listed: each pass that polls takes one answer. One more
pass takes an answer from behind the list, and without polling one pass shows all. -/
def State.passes (s : State) : Nat := if s.params.trapStringReadsPoll then s.input.listed.length + 1 else 1

/-- Those passes of the loop. -/
def State.stringPasses (s : State) (k : StringKind) (a : Word) : State × Option Word :=
  stringLoop k (Config.memWords * s.passes) a s

/-- No later pass can read a zero that the last one did not: the reads do not poll, or every answer to come is a non-zero
byte. -/
def State.settled (s : State) : Bool := !s.params.trapStringReadsPoll || (s.input.endless && s.input.listed.isEmpty)

/-- A string routine, run to its end (R82, R164). Passes that meet no zero word leave a settled state, and then no read
ever returns zero: DIVERGED (R162, log entry 6). Or a stretch of answers with a quiet one last is listed, and the string
ends within the passes over that stretch: the last arm is not reached (log entry 7). -/
def State.stringTrap (s : State) (k : StringKind) : State :=
  match s.stringPasses k (s.reg .r0) with
  | (t, none) => t
  | (t, some a) =>
    if t.settled then t.setRun (.diverged ⟨k, a⟩)
    else
      match t.stringPasses k a with
      | (u, none) => u
      | (u, some b) => u.setRun (.diverged ⟨k, b⟩)

/-- A step in DIVERGED (R162): "appends the next byte or bytes of that endless sequence and changes nothing else"; a
polling read of the status cell refreshes the keyboard cells as every such read does (R43, R160, log entry 7). -/
def State.divergedStep (s : State) (l : StringLoop) : State :=
  ((s.strRead l.ptr).2.outWrites (stringBytes l.kind (s.strRead l.ptr).1)).setRun (.diverged ⟨l.kind, l.ptr + 1⟩)

/-! ### The meanings -/

/-- TRAP x20, GETC (R152). -/
def execTrapGetc (s : State) : Host.Outcome State Fault Refusal := .next (s.enterTrap.readChar fun _ => [])

/-- TRAP x21, OUT (R154). -/
def execTrapOut (s : State) : Host.Outcome State Fault Refusal :=
  .next (s.enterTrap.outWrites [(s.enterTrap.reg .r0).extractLsb' 0 8])

/-- TRAP x22, PUTS (R155). -/
def execTrapPuts (s : State) : Host.Outcome State Fault Refusal := .next (s.enterTrap.stringTrap .puts)

/-- TRAP x23, IN (R156): the prompt, then the read with echo. -/
def execTrapIn (s : State) : Host.Outcome State Fault Refusal :=
  .next ((s.enterTrap.outWrites s.params.inPrompt).readChar fun b => [b])

/-- TRAP x24, PUTSP (R157). -/
def execTrapPutsp (s : State) : Host.Outcome State Fault Refusal := .next (s.enterTrap.stringTrap .putsp)

/-- TRAP x25, HALT (R158). -/
def execTrapHalt (s : State) : Host.Outcome State Fault Refusal :=
  .next ((s.enterTrap.outWrites s.params.haltMessage).setRun .halted)

/-- TRAP with a vector of no routine: R7 is written and nothing else happens (R159). -/
def execTrapUnknown (_v : BitVec 8) (s : State) : Host.Outcome State Fault Refusal := .next s.enterTrap

end Sys2Proof.Machine
end

