-- ==== Sys2Proof/Machine/Cycle.lean ====
section
/-! DEFINITION. The fetch-decode-execute cycle (30_encoding R80) and a step in each run state (R27). -/

namespace Sys2Proof.Machine

/-- Fetch and advance (R80, 1 and 2): the word, and the state with the incremented `pc`. A fetch is a `MemRead`. -/
def State.fetch (s : State) : Word × State := ((s.memRead s.pc).1, (s.memRead s.pc).2.setPc (s.pc + 1))

/-- One step by run state. RUNNING: R80. DIVERGED: R162. HALTED and INPUT_CLOSED are final; a step of a machine that
takes no more steps is the identity. DESIGN CHOICE, log entry 8. -/
def cycle (s : State) : Host.Outcome State Fault Refusal :=
  match s.run with
  | .running => exec (decode s.fetch.1) s.fetch.2
  | .diverged l => .next (s.divergedStep l)
  | .halted => .next s
  | .inputClosed => .next s

end Sys2Proof.Machine
end

