-- ==== Sys2Proof/Machine/Session.lean ====
section
/-! DEFINITION. The session interface from the host: `load`, `run`, `reset` (70_reset_and_hazards R190 to R200). -/

namespace Sys2Proof.Machine

/-- An image stream (R191): the bytes it supplies, first one first, and whether reading past them is a read failure
("unreadable", R194) and not the end of the stream. -/
structure ImageStream where
  bytes : List Byte
  readFails : Bool
  deriving DecidableEq, Repr

/-- What `load` returns (R193, R194). -/
inductive LoadResult where
  /-- The origin and the number of words written. -/
  | loaded (origin : Word) (count : Nat)
  /-- The stream is truncated or unreadable; "reported to caller, aborts that load" (R173). -/
  | loadError
  deriving DecidableEq, Repr

/-- The big-endian words of a byte sequence; an odd last byte is ignored (R191, R193, D20). -/
def wordsOf : List Byte → List Word
  | hi :: lo :: rest => (hi ++ lo) :: wordsOf rest
  | [_] => []
  | [] => []

/-- `swap(w)` (R192). -/
def swap (w : Word) : Word := w.extractLsb' 0 8 ++ w.extractLsb' 8 8

/-- Writes words at rising addresses, directly into the array (R193: "no MemWrite side effects"). -/
def Memory.setWords : Memory → Word → List Word → Memory
  | m, _, [] => m
  | m, a, w :: ws => (m.setWord a w).setWords (a + 1) ws

/-- "memory capacity (65536 − origin)" (R193). -/
def capacity (origin : Word) : Nat := Config.memWords - origin.toNat

/-- `load(stream)` (R193, R194). A stream that fails before the capacity is used up has its earlier words written and is
an error (D20, log entry 9). -/
def load (stream : ImageStream) (s : State) : LoadResult × State :=
  match wordsOf stream.bytes with
  | [] => (.loadError, s)
  | origin :: body =>
    let words := body.take (capacity origin)
    let t := { s with mem := s.mem.setWords origin words }
    if stream.readFails && decide (body.length < capacity origin) then (.loadError, t)
    else (.loaded origin words.length, t)

/-- Several images in sequence (R195). After a LoadError it goes on with the next image: the spec leaves that to the host
(R194: "the caller decides whether a LoadError is fatal"). DESIGN CHOICE, log entry 13. -/
def loadAll : List ImageStream → State → List LoadResult × State
  | [], s => ([], s)
  | stream :: rest, s => ((load stream s).1 :: (loadAll rest (load stream s).2).1, (loadAll rest (load stream s).2).2)

/-- Whether `run()` has returned (R197, R200): the run state is HALTED or INPUT_CLOSED. -/
def Run.ended : Run → Bool
  | .halted => true
  | .inputClosed => true
  | .running => false
  | .diverged _ => false

/-- `run()` cut after at most `budget` steps (R81, R197): it stops at once when the run has ended. -/
def runFor : Nat → State → Host.Outcome State Fault Refusal
  | 0, s => .next s
  | budget + 1, s =>
    if s.run.ended then .next s
    else
      match step s with
      | .next t => runFor budget t
      | .fault r => .fault r
      | .refused r => .refused r

/-- `reset()` (R196): a new session. The input is no part of the block and stays as it is; so do the parameters. -/
def State.hostReset (s : State) : State :=
  { State.start s.params with input := s.input }

end Sys2Proof.Machine
end

