-- ==== Sys2Proof/Safety.lean ====
section
/-! DEFINITION. The terms claims are made in: the invariant of the machine, and which instruction may change what. -/

namespace Sys2Proof.Machine

/-- "exactly one of POS, ZRO, NEG is set in COND at all times" (R23). -/
def CondLegal (s : State) : Prop := s.cond = Config.condPos ∨ s.cond = Config.condZro ∨ s.cond = Config.condNeg

/-- The state after `n` string reads, at `a` and the words after it (R160, R161: the pointer wraps). -/
def State.afterReads : Nat → Word → State → State
  | 0, _, s => s
  | n + 1, a, s => State.afterReads n (a + 1) (s.strRead a).2

/-- The word that string read number `n` (from 0) returns, the first one at `a`. -/
def State.stringRead (s : State) (a : Word) (n : Nat) : Word := ((s.afterReads n a).strRead (a + BitVec.ofNat 16 n)).1

/-- DIVERGED "only if no read ever returns zero" (R162). -/
def RunCoherent (s : State) : Prop :=
  match s.run with
  | .diverged l => ∀ n, s.stringRead l.ptr n ≠ 0
  | .running => True
  | .halted => True
  | .inputClosed => True

/-- The invariant of the machine. -/
structure Inv (s : State) : Prop where
  memWf : s.mem.wf
  condLegal : CondLegal s
  runCoherent : RunCoherent s

/-- The destination an instruction has in bits [11:9], or R0 for GETC and IN, and the link R7 (R21). -/
def writers : Instr → List Reg
  | .addReg dr _ _ | .addImm dr _ _ | .andReg dr _ _ | .andImm dr _ _ | .not dr _ => [dr]
  | .ld dr _ | .ldi dr _ | .ldr dr _ _ | .lea dr _ => [dr]
  | .jsr _ | .jsrr _ => [.r7]
  | .trapGetc | .trapIn => [.r7, .r0]
  | .trapOut | .trapPuts | .trapPutsp | .trapHalt | .trapUnknown _ => [.r7]
  | .br _ _ _ _ | .jmp _ | .ret | .st _ _ | .sti _ _ | .str _ _ _ | .rti | .res => []

/-- The flag-setting instructions (R25). -/
def flagSetting : Instr → Bool
  | .addReg _ _ _ | .addImm _ _ _ | .andReg _ _ _ | .andImm _ _ _ | .not _ _ => true
  | .ld _ _ | .ldi _ _ | .ldr _ _ _ | .lea _ _ => true
  | .trapGetc | .trapIn => true
  | .br _ _ _ _ | .jmp _ | .ret | .jsr _ | .jsrr _ | .st _ _ | .sti _ _ | .str _ _ _ => false
  | .rti | .res | .trapOut | .trapPuts | .trapPutsp | .trapHalt | .trapUnknown _ => false

/-- The instructions that use `MemWrite` (R45). -/
def storing : Instr → Bool
  | .st _ _ | .sti _ _ | .str _ _ _ => true
  | .addReg _ _ _ | .addImm _ _ _ | .andReg _ _ _ | .andImm _ _ _ | .not _ _ => false
  | .br _ _ _ _ | .jmp _ | .ret | .jsr _ | .jsrr _ | .ld _ _ | .ldi _ _ | .ldr _ _ _ | .lea _ _ => false
  | .rti | .res | .trapGetc | .trapOut | .trapPuts | .trapIn | .trapPutsp | .trapHalt | .trapUnknown _ => false

/-- The instructions that may append to the output (R29): OUT, PUTS, IN, PUTSP, and HALT's message. -/
def outputting : Instr → Bool
  | .trapOut | .trapPuts | .trapIn | .trapPutsp | .trapHalt => true
  | .addReg _ _ _ | .addImm _ _ _ | .andReg _ _ _ | .andImm _ _ _ | .not _ _ => false
  | .br _ _ _ _ | .jmp _ | .ret | .jsr _ | .jsrr _ | .ld _ _ | .ldi _ _ | .ldr _ _ _ | .lea _ _ => false
  | .st _ _ | .sti _ _ | .str _ _ _ | .rti | .res | .trapGetc | .trapUnknown _ => false

/-- The instructions that may end or suspend RUNNING: RTI, RES, HALT, GETC, IN (R200), PUTS, PUTSP (R162). -/
def stopping : Instr → Bool
  | .rti | .res | .trapHalt | .trapGetc | .trapIn | .trapPuts | .trapPutsp => true
  | .addReg _ _ _ | .addImm _ _ _ | .andReg _ _ _ | .andImm _ _ _ | .not _ _ => false
  | .br _ _ _ _ | .jmp _ | .ret | .jsr _ | .jsrr _ | .ld _ _ | .ldi _ _ | .ldr _ _ _ | .lea _ _ => false
  | .st _ _ | .sti _ _ | .str _ _ _ | .trapOut | .trapUnknown _ => false

/-- The control-transfer instructions, the only writers of `pc` beside the cycle (R22). -/
def transferring : Instr → Bool
  | .br _ _ _ _ | .jmp _ | .ret | .jsr _ | .jsrr _ => true
  | .addReg _ _ _ | .addImm _ _ _ | .andReg _ _ _ | .andImm _ _ _ | .not _ _ => false
  | .ld _ _ | .ldi _ _ | .ldr _ _ _ | .lea _ _ | .st _ _ | .sti _ _ | .str _ _ _ => false
  | .rti | .res | .trapGetc | .trapOut | .trapPuts | .trapIn | .trapPutsp | .trapHalt | .trapUnknown _ => false

/-- The rows of TRAP (R150, R151). -/
def trapping : Instr → Bool
  | .trapGetc | .trapOut | .trapPuts | .trapIn | .trapPutsp | .trapHalt | .trapUnknown _ => true
  | .addReg _ _ _ | .addImm _ _ _ | .andReg _ _ _ | .andImm _ _ _ | .not _ _ => false
  | .br _ _ _ _ | .jmp _ | .ret | .jsr _ | .jsrr _ | .ld _ _ | .ldi _ _ | .ldr _ _ _ | .lea _ _ => false
  | .st _ _ | .sti _ _ | .str _ _ _ | .rti | .res => false

/-- The writers of the link: "The only link register is R7, written by JSR, JSRR and TRAP" (R114). -/
def linking (i : Instr) : Bool :=
  match i with
  | .jsr _ | .jsrr _ => true
  | other => trapping other

/-- The address an instruction stores to, in the state it executes in: the effective address of ST and STR, and STI's
pointer (R124 to R126). -/
def storeAddress (i : Instr) (s : State) : Option Word :=
  match i with
  | .st _ off => some (s.eaPc off)
  | .str _ base off => some (s.eaBase base off)
  | .sti _ off => some (s.eaIndirect off).1
  | .addReg _ _ _ | .addImm _ _ _ | .andReg _ _ _ | .andImm _ _ _ | .not _ _ => none
  | .br _ _ _ _ | .jmp _ | .ret | .jsr _ | .jsrr _ | .ld _ _ | .ldi _ _ | .ldr _ _ _ | .lea _ _ => none
  | .rti | .res | .trapGetc | .trapOut | .trapPuts | .trapIn | .trapPutsp | .trapHalt | .trapUnknown _ => none

/-- An instruction that reads memory in the state it executes in: LD, LDI, LDR, STI's pointer (R45), PUTS and PUTSP. -/
def reading : Instr → Bool
  | .ld _ _ | .ldi _ _ | .ldr _ _ _ | .sti _ _ | .trapPuts | .trapPutsp => true
  | .addReg _ _ _ | .addImm _ _ _ | .andReg _ _ _ | .andImm _ _ _ | .not _ _ => false
  | .br _ _ _ _ | .jmp _ | .ret | .jsr _ | .jsrr _ | .lea _ _ | .st _ _ | .str _ _ _ => false
  | .rti | .res | .trapGetc | .trapOut | .trapIn | .trapHalt | .trapUnknown _ => false

/-! ### Effects, in the spec's words -/

/-- COND after `set_flags(v)` (R24). -/
def condFor (v : Word) : Word :=
  if v = 0 then Config.condZro else if v.getLsbD 15 then Config.condNeg else Config.condPos

/-- A word plus a signed offset, modulo 2^16 (R52). -/
def plusInt (a : Word) (i : Int) : Word := BitVec.ofInt 16 (a.toNat + i)

/-- From `s` to `t`, DR got `v`, COND was set from `v`, and nothing else changed. -/
def WroteResult (s t : State) (dr : Reg) (v : Word) : Prop :=
  t.reg dr = v ∧ t.cond = condFor v ∧ (∀ r, r ≠ dr → t.reg r = s.reg r) ∧ (∀ a, t.rawRead a = s.rawRead a) ∧
  t = { s with regs := t.regs, cond := t.cond }

/-- From `s` to `t`, M[a] got `v` and nothing else changed. -/
def WroteWord (s t : State) (a v : Word) : Prop :=
  t.rawRead a = v ∧ (∀ b, b ≠ a → t.rawRead b = s.rawRead b) ∧ t = { s with mem := t.mem }

/-- From `s` to `t`, R7 got the incremented PC and no other register changed. -/
def Linked (s t : State) : Prop := t.reg .r7 = s.pc ∧ ∀ r, r ≠ .r7 → t.reg r = s.reg r

/-- The word that read number `i` of the string at R0 returns. -/
def stringWord (s : State) (i : Nat) : Word := s.stringRead (s.reg .r0) i

/-- The reads of the string at R0 give `n` non-zero words and then a zero one (R155, R157). -/
def StringOf (s : State) (n : Nat) : Prop := (∀ i, i < n → stringWord s i ≠ 0) ∧ stringWord s n = 0

/-- A byte in a list, or nothing for a zero byte (R157). -/
def nonZeroByte (b : Byte) : List Byte := if b = 0 then [] else [b]

/-- What PUTSP writes for one word (R157). -/
def putspBytes (w : Word) : List Byte := nonZeroByte (w.extractLsb' 0 8) ++ nonZeroByte (w.extractLsb' 8 8)

end Sys2Proof.Machine
end

