-- ==== Sys2Proof/Certificates/Slice0/Obligations.lean ====
section
/-! DEFINITION. The statements about the model, from the numbered rules of spec/. `pc` in a statement about `exec` is the
incremented PC (R80). Encoding numbers are the spec's decisions D2, D3, D6 (log entry 5). -/

open Sys2Proof Sys2Proof.Machine

/-! ### Encoding (30_encoding) -/

/-- Words written out from the formats of R61 with the numbers of R70 and R66 (decisions D2, D3, D6). -/
def Obligations.DecodeSampleWords : Prop :=
  decode 0b0001_011_001_0_00_010 = .addReg .r3 .r1 .r2 ∧ decode 0b0101_010_001_1_01111 = .andImm .r2 .r1 15 ∧
  decode 0b1001_001_000_111111 = .not .r1 .r0 ∧ decode 0b0000_010_000000010 = .br false true false 2 ∧
  decode 0b1100_000_111_000000 = .ret ∧ decode 0b0100_1_00000000100 = .jsr 4 ∧
  decode 0b0110_011_010_111111 = .ldr .r3 .r2 0b111111 ∧ decode 0b1011_001_000000001 = .sti .r1 1 ∧
  decode 0b1101_000000000000 = .res ∧ decode 0b1111_0000_00100101 = .trapHalt ∧
  decode 0b1111_0000_00110000 = .trapUnknown 0x30

/-- Decoding the word of a well-formed instruction gives it back, at every operand value (R61, R64; D2, D3, D6). -/
def Obligations.DecodeEncodeRoundTrip : Prop := ∀ i : Instr, WellFormed i → decode (encode i) = i

/-- Every 16-bit word decodes to a well-formed instruction (R71, R83; D2, D3, D6). -/
def Obligations.DecodeIsWellFormed : Prop := ∀ w : Word, WellFormed (decode w)

/-- No bit a format names is dropped: encoding the decoded word gives the same word on those bits (R61, R67). -/
def Obligations.EncodeDecodeKeepsUsedBits : Prop :=
  ∀ w : Word, encode (decode w) &&& (decode w).usedBits = w &&& (decode w).usedBits

/-- Two words that agree on the bits the format names are the same instruction (R67, decision D4). -/
def Obligations.IgnoredBitsDoNotMatter : Prop :=
  ∀ w v : Word, w &&& (decode w).usedBits = v &&& (decode w).usedBits → decode v = decode w

/-- The decoder agrees with spec/opcode_table.json on every word: the row of the instruction it gives is the first row the
word matches (R70; D2, D3, D6). -/
def Obligations.DecodeFollowsOpcodeTable : Prop := ∀ w : Word, tableMnemonic w = some (decode w).mnemonic

/-- R10: an n-bit field extends to 16 bits by replicating its sign bit (so its signed value is kept), or with zeros. -/
def Obligations.SignAndZeroExtension : Prop :=
  (∀ (n : Nat) (f : BitVec n), 0 < n → n ≤ 16 →
    (∀ i, i < 16 → (sext f).getLsbD i = f.getLsbD (min i (n - 1))) ∧ (sext f).toInt = f.toInt ∧
    ∀ i, i < 16 → (f.setWidth 16).getLsbD i = (decide (i < n) && f.getLsbD i)) ∧
  sext 0b10001#5 = 0xFFF1 ∧ sext 0b01111#5 = 0x000F

/-! ### Flags (10_state R24, R25) -/

/-- R24. The words COND holds for the names are decision D5. -/
def Obligations.SetFlagsRule : Prop :=
  ∀ (s : State) (v : Word), s.setFlags v =
    { s with cond := if v = 0 then Config.condZro else if v.getLsbD 15 then Config.condNeg else Config.condPos }

/-! ### Operate (40_operate) -/

/-- R100, both forms: DR gets the sum modulo 2^16, COND follows it, nothing else changes. Sources are read before DR is
written, whichever registers are equal. -/
def Obligations.AddResult : Prop :=
  ∀ (dr sr1 sr2 : Reg) (imm5 : BitVec 5) (s : State),
    (∃ t, exec (.addReg dr sr1 sr2) s = .next t ∧
      WroteResult s t dr (BitVec.ofNat 16 (((s.reg sr1).toNat + (s.reg sr2).toNat) % 65536))) ∧
    (∃ t, exec (.addImm dr sr1 imm5) s = .next t ∧ WroteResult s t dr (plusInt (s.reg sr1) imm5.toInt))

/-- R101, both forms. -/
def Obligations.AndResult : Prop :=
  ∀ (dr sr1 sr2 : Reg) (imm5 : BitVec 5) (s : State),
    (∃ t, exec (.andReg dr sr1 sr2) s = .next t ∧ WroteResult s t dr (s.reg sr1 &&& s.reg sr2)) ∧
    (∃ t, exec (.andImm dr sr1 imm5) s = .next t ∧ WroteResult s t dr (s.reg sr1 &&& BitVec.ofInt 16 imm5.toInt))

/-- R102. The complement of a 16-bit word is 65535 minus it. -/
def Obligations.NotResult : Prop :=
  ∀ (dr sr : Reg) (s : State),
    ∃ t, exec (.not dr sr) s = .next t ∧ WroteResult s t dr (BitVec.ofNat 16 (65535 - (s.reg sr).toNat))

/-! ### Control transfer (41_control) -/

/-- R110's pseudocode; only PC can change. That n, z, p are bits 2, 1, 0 of the condition field is decision D3, and the words
of COND are decision D5 (log entry 5). -/
def Obligations.BrResult : Prop :=
  ∀ (n z p : Bool) (off : BitVec 9) (s : State), ∃ t, exec (.br n z p off) s = .next t ∧
    t.pc = (if BitVec.ofNat 16 (4 * n.toNat + 2 * z.toNat + p.toNat) &&& s.cond ≠ 0 then plusInt s.pc off.toInt else s.pc) ∧
    t = { s with pc := t.pc }

/-- R110 where COND holds one of its three flags (R23, values by D5): the branch is taken exactly on a flag that its letter
names, so n = z = p = 0 never branches and n = z = p = 1 always does. -/
def Obligations.BrTakenByFlag : Prop :=
  ∀ (n z p : Bool) (off : BitVec 9) (s : State), CondLegal s → ∃ t, exec (.br n z p off) s = .next t ∧
    ((n = true ∧ s.cond = Config.condNeg) ∨ (z = true ∧ s.cond = Config.condZro) ∨ (p = true ∧ s.cond = Config.condPos) →
      t.pc = plusInt s.pc off.toInt) ∧
    (¬ ((n = true ∧ s.cond = Config.condNeg) ∨ (z = true ∧ s.cond = Config.condZro) ∨ (p = true ∧ s.cond = Config.condPos)) →
      t.pc = s.pc) ∧
    (n = true ∧ z = true ∧ p = true → t.pc = plusInt s.pc off.toInt) ∧
    (n = false ∧ z = false ∧ p = false → t.pc = s.pc)

/-- R111: JMP from every base, RET from R7; PC gets the register and nothing else changes. -/
def Obligations.JmpRetResult : Prop :=
  ∀ (base : Reg) (s : State),
    exec (.jmp base) s = .next { s with pc := s.reg base } ∧ exec .ret s = .next { s with pc := s.reg .r7 }

/-- R112. -/
def Obligations.JsrResult : Prop :=
  ∀ (off : BitVec 11) (s : State), ∃ t, exec (.jsr off) s = .next t ∧ Linked s t ∧
    t.pc = plusInt s.pc off.toInt ∧ (∀ a, t.rawRead a = s.rawRead a) ∧ t = { s with regs := t.regs, pc := t.pc }

/-- R113. With BaseR = R7 the target is the new R7, or the old one where JSRR_READ_BASE_FIRST (decision D8). -/
def Obligations.JsrrResult : Prop :=
  ∀ (base : Reg) (s : State), ∃ t, exec (.jsrr base) s = .next t ∧ Linked s t ∧
    (base ≠ .r7 → t.pc = s.reg base) ∧
    (base = .r7 → s.params.jsrrReadBaseFirst = false → t.pc = s.pc) ∧
    (base = .r7 → s.params.jsrrReadBaseFirst = true → t.pc = s.reg .r7) ∧
    (∀ a, t.rawRead a = s.rawRead a) ∧ t = { s with regs := t.regs, pc := t.pc }

/-- Whatever JSR, JSRR or a TRAP did, RET afterwards goes to the word after it (R111, R112, R113, R150). -/
def Obligations.LinkThenRetReturns : Prop :=
  ∀ (i : Instr) (s t : State), linking i = true → exec i s = .next t → exec .ret t = .next { t with pc := s.pc }

/-! ### Loads and stores (42_load_store) -/

/-- R120: the word of a `MemRead` at the PC-relative address; COND follows it. -/
def Obligations.LdResult : Prop :=
  ∀ (dr : Reg) (off : BitVec 9) (s : State), s.eaPc off = plusInt s.pc off.toInt ∧
    ∃ t, exec (.ld dr off) s = .next t ∧ WroteResult (s.memRead (s.eaPc off)).2 t dr (s.memRead (s.eaPc off)).1

/-- R121: two `MemRead`s in order, the second at the word the first gave. -/
def Obligations.LdiResult : Prop :=
  ∀ (dr : Reg) (off : BitVec 9) (s : State), s.eaPc off = plusInt s.pc off.toInt ∧
    ∀ p u, s.memRead (s.eaPc off) = (p, u) → ∃ t, exec (.ldi dr off) s = .next t ∧ WroteResult (u.memRead p).2 t dr (u.memRead p).1

/-- R122. -/
def Obligations.LdrResult : Prop :=
  ∀ (dr base : Reg) (off : BitVec 6) (s : State), s.eaBase base off = plusInt (s.reg base) off.toInt ∧
    ∃ t, exec (.ldr dr base off) s = .next t ∧ WroteResult (s.memRead (s.eaBase base off)).2 t dr (s.memRead (s.eaBase base off)).1

/-- R123: the address itself; no memory access, so no poll even at KBSR_ADDR. -/
def Obligations.LeaResult : Prop :=
  ∀ (dr : Reg) (off : BitVec 9) (s : State),
    ∃ t, exec (.lea dr off) s = .next t ∧ WroteResult s t dr (plusInt s.pc off.toInt)

/-- The frame of LD, LDI, LDR: no register but DR, no word but the keyboard cells, and of the rest only COND and the input;
a load none of whose reads is at KBSR_ADDR changes DR and COND alone (R41, R43, R120 to R122). -/
def Obligations.LoadFrame : Prop :=
  ∀ (dr base : Reg) (off : BitVec 9) (off6 : BitVec 6) (s t : State),
    ((exec (.ld dr off) s = .next t ∨ exec (.ldi dr off) s = .next t ∨ exec (.ldr dr base off6) s = .next t) →
      (∀ r, r ≠ dr → t.reg r = s.reg r) ∧ 
      (∀ a, a ≠ s.params.kbsrAddr → a ≠ s.params.kbdrAddr → t.rawRead a = s.rawRead a) ∧
      t = { s with regs := t.regs, cond := t.cond, mem := t.mem, input := t.input }) ∧
    (exec (.ld dr off) s = .next t → s.eaPc off ≠ s.params.kbsrAddr → t = { s with regs := t.regs, cond := t.cond }) ∧
    (exec (.ldi dr off) s = .next t → s.eaPc off ≠ s.params.kbsrAddr → s.rawRead (s.eaPc off) ≠ s.params.kbsrAddr →
      t = { s with regs := t.regs, cond := t.cond }) ∧
    (exec (.ldr dr base off6) s = .next t → s.eaBase base off6 ≠ s.params.kbsrAddr →
      t = { s with regs := t.regs, cond := t.cond })

/-- R124: one word is stored and nothing else changes. -/
def Obligations.StResult : Prop :=
  ∀ (sr : Reg) (off : BitVec 9) (s : State), s.eaPc off = plusInt s.pc off.toInt ∧
    ∃ t, exec (.st sr off) s = .next t ∧ WroteWord s t (s.eaPc off) (s.reg sr)

/-- R125: a `MemRead` for the pointer, then the store at the word it gave. -/
def Obligations.StiResult : Prop :=
  ∀ (sr : Reg) (off : BitVec 9) (s : State), s.eaPc off = plusInt s.pc off.toInt ∧
    ∀ p u, s.memRead (s.eaPc off) = (p, u) → ∃ t, exec (.sti sr off) s = .next t ∧ WroteWord u t p (s.reg sr)

/-- R126. -/
def Obligations.StrResult : Prop :=
  ∀ (sr base : Reg) (off : BitVec 6) (s : State), s.eaBase base off = plusInt (s.reg base) off.toInt ∧
    ∃ t, exec (.str sr base off) s = .next t ∧ WroteWord s t (s.eaBase base off) (s.reg sr)

/-- R57: a store to the address of the next fetch is what that fetch reads, for ST, STI and STR. -/
def Obligations.StoreVisibleToFetch : Prop :=
  ∀ (sr base : Reg) (off : BitVec 9) (off6 : BitVec 6) (i : Instr) (s t : State),
    i = .st sr off ∨ i = .sti sr off ∨ i = .str sr base off6 → exec i s = .next t →
    storeAddress i s = some t.pc → t.pc ≠ t.params.kbsrAddr → t.run = .running →
    step t = exec (decode (s.reg sr)) { t with pc := t.pc + 1 }

/-! ### Reserved opcodes (43_reserved) -/

/-- R140, R141: HALTED, and nothing else changes (the cycle has advanced PC already). -/
def Obligations.RtiResHalt : Prop :=
  ∀ s : State, exec .rti s = .next { s with run := .halted } ∧ exec .res s = .next { s with run := .halted }

/-! ### Traps (44_trap) -/

/-- R152, when the read is answered with a byte. -/
def Obligations.GetcResult : Prop :=
  ∀ (s : State) (b : Byte), s.answer = some b → ∃ t, exec .trapGetc s = .next t ∧
    t.reg .r0 = extIn s.params b ∧ t.cond = condFor (extIn s.params b) ∧ t.reg .r7 = s.pc ∧
    (∀ r, r ≠ .r0 → r ≠ .r7 → t.reg r = s.reg r) ∧ (∀ a, t.rawRead a = s.rawRead a) ∧
    t = { s.consume with regs := t.regs, cond := t.cond }

/-- R156, when the read is answered with a byte: the prompt, then the echo. -/
def Obligations.InResult : Prop :=
  ∀ (s : State) (b : Byte), s.answer = some b → ∃ t, exec .trapIn s = .next t ∧
    t.out = s.out ++ s.params.inPrompt ++ [b] ∧
    t.reg .r0 = extIn s.params b ∧ t.cond = condFor (extIn s.params b) ∧ t.reg .r7 = s.pc ∧
    (∀ r, r ≠ .r0 → r ≠ .r7 → t.reg r = s.reg r) ∧ (∀ a, t.rawRead a = s.rawRead a) ∧
    t = { s.consume with regs := t.regs, cond := t.cond, out := t.out }

/-- R153 (decision D16): GETC and IN when the input is closed. R0 and COND are free values; COND is one of the flags. -/
def Obligations.InputClosedResult : Prop :=
  ∀ (i : Instr) (s : State), i = .trapGetc ∨ i = .trapIn → s.answer = none → ∃ t, exec i s = .next t ∧
    t.run = .inputClosed ∧ CondLegal t ∧ t.reg .r7 = s.pc ∧ (∀ r, r ≠ .r0 → r ≠ .r7 → t.reg r = s.reg r) ∧
    (∀ a, t.rawRead a = s.rawRead a) ∧ t.pc = s.pc ∧ t.params = s.params ∧
    (i = .trapGetc → t.out = s.out) ∧ (i = .trapIn → t.out = s.out ++ s.params.inPrompt)

/-- R154. -/
def Obligations.OutResult : Prop :=
  ∀ s : State, ∃ t, exec .trapOut s = .next t ∧ t.out = s.out ++ [BitVec.ofNat 8 ((s.reg .r0).toNat % 256)] ∧
    Linked s t ∧ (∀ a, t.rawRead a = s.rawRead a) ∧ t = { s with regs := t.regs, out := t.out }

/-- R155 (decision D11) on a string that ends, with plain or polling reads (R160): the low byte of each word, not the
terminator. Beside what the reads do, which is nothing when they are plain, R7 and the output change. -/
def Obligations.PutsResult : Prop :=
  ∀ (s : State) (n : Nat), StringOf s n → ∃ t, exec .trapPuts s = .next t ∧
    t.out = s.out ++ (List.range n).map (fun i => BitVec.ofNat 8 ((stringWord s i).toNat % 256)) ∧
    Linked s t ∧ t = { s.afterReads (n + 1) (s.reg .r0) with regs := t.regs, out := t.out } ∧
    (∀ a, a ≠ s.params.kbsrAddr → a ≠ s.params.kbdrAddr → t.rawRead a = s.rawRead a) ∧
    (s.params.trapStringReadsPoll = false → t = { s with regs := t.regs, out := t.out })

/-- R157 on a string that ends, with plain or polling reads (R160): of each word the low byte, then the high byte, zero bytes
skipped. Beside what the reads do, which is nothing when they are plain, R7 and the output change. -/
def Obligations.PutspResult : Prop :=
  ∀ (s : State) (n : Nat), StringOf s n → ∃ t, exec .trapPutsp s = .next t ∧
    t.out = s.out ++ (List.range n).flatMap (fun i => putspBytes (stringWord s i)) ∧
    Linked s t ∧ t = { s.afterReads (n + 1) (s.reg .r0) with regs := t.regs, out := t.out } ∧
    (∀ a, a ≠ s.params.kbsrAddr → a ≠ s.params.kbdrAddr → t.rawRead a = s.rawRead a) ∧
    (s.params.trapStringReadsPoll = false → t = { s with regs := t.regs, out := t.out })

/-- R158. HALT_MESSAGE is a parameter, OPEN by decision D15 and held in State (log entry 4). -/
def Obligations.HaltResult : Prop :=
  ∀ s : State, ∃ t, exec .trapHalt s = .next t ∧ t.run = .halted ∧ t.out = s.out ++ s.params.haltMessage ∧
    Linked s t ∧ (∀ a, t.rawRead a = s.rawRead a) ∧ t = { s with regs := t.regs, out := t.out, run := t.run }

/-- R159 (decision D7): R7 is written and nothing else changes. -/
def Obligations.UnknownVectorResult : Prop :=
  ∀ (v : BitVec 8) (s : State), ∃ t, exec (.trapUnknown v) s = .next t ∧ Linked s t ∧
    (∀ a, t.rawRead a = s.rawRead a) ∧ t = { s with regs := t.regs }

/-- R150, R164, R174: every trap saves the incremented PC in R7 and leaves PC as it is, whatever its routine does. -/
def Obligations.TrapSavesPc : Prop :=
  ∀ (i : Instr) (s t : State), trapping i = true → exec i s = .next t → t.reg .r7 = s.pc ∧ t.pc = s.pc ∧
    (∀ r, r ≠ .r0 → r ≠ .r7 → t.reg r = s.reg r)

/-- R162 (decision D10): when no read of the string ever returns zero, PUTS and PUTSP end in DIVERGED. That the TRAP's own
step has then written `s.passes` whole passes, one when the reads are plain, is the model's choice (log entry 6). -/
def Obligations.EndlessStringDiverges : Prop :=
  ∀ s : State, (∀ i, stringWord s i ≠ 0) →
    (∃ t, exec .trapPuts s = .next t ∧ t.run = .diverged ⟨.puts, s.reg .r0⟩ ∧
      t.out = s.out ++ (List.range (65536 * s.passes)).map (fun i => BitVec.ofNat 8 ((stringWord s i).toNat % 256)) ∧
      Linked s t ∧ t = { s.afterReads (65536 * s.passes) (s.reg .r0) with regs := t.regs, out := t.out, run := t.run }) ∧
    (∃ t, exec .trapPutsp s = .next t ∧ t.run = .diverged ⟨.putsp, s.reg .r0⟩ ∧
      t.out = s.out ++ (List.range (65536 * s.passes)).flatMap (fun i => putspBytes (stringWord s i)) ∧
      Linked s t ∧ t = { s.afterReads (65536 * s.passes) (s.reg .r0) with regs := t.regs, out := t.out, run := t.run }) ∧
    (s.params.trapStringReadsPoll = false →
      s.passes = 1 ∧ s.afterReads (65536 * s.passes) (s.reg .r0) = s)

/-- R155, R157, R162, R164: in the TRAP's own step a string routine completes exactly when some read returns zero, and is
DIVERGED exactly when none ever does; with plain reads that is when no word of memory is zero. -/
def Obligations.StringCompletesIffTerminated : Prop :=
  ∀ (i : Instr) (s : State), i = .trapPuts ∨ i = .trapPutsp → s.run = .running →
    ((∃ t, exec i s = .next t ∧ t.run = .running) ↔ ∃ n, stringWord s n = 0) ∧
    ((∃ t l, exec i s = .next t ∧ t.run = .diverged l) ↔ ∀ n, stringWord s n ≠ 0) ∧
    (s.params.trapStringReadsPoll = false → ((∃ n, stringWord s n = 0) ↔ ∃ a : Word, s.rawRead a = 0))

/-- R162 (decision D10): a DIVERGED machine never stops; n steps append the bytes of the next n words read, PUTS's low bytes
or PUTSP's non-zero bytes. Beside the place in the sequence nothing changes when the reads are plain; polling reads do what
R43 says (log entry 7). -/
def Obligations.DivergedForever : Prop :=
  ∀ (n : Nat) (s : State) (l : StringLoop), s.run = .diverged l →
    core.run n s = .next { s.afterReads n l.ptr with
      run := .diverged ⟨l.kind, l.ptr + BitVec.ofNat 16 n⟩,
      out := s.out ++ (List.range n).flatMap (fun i =>
        match l.kind with
        | .puts => [BitVec.ofNat 8 ((s.stringRead l.ptr i).toNat % 256)]
        | .putsp => putspBytes (s.stringRead l.ptr i)) } ∧
    (s.params.trapStringReadsPoll = false →
      s.afterReads n l.ptr = s ∧ ∀ i, s.stringRead l.ptr i = s.rawRead (l.ptr + BitVec.ofNat 16 i))

/-- R160, R162 with TRAP_STRING_READS_POLL (decision D9): a string at KBSR_ADDR polls, and ends at once when there is no
byte. -/
def Obligations.PollingStringEndsAtEmptyPoll : Prop :=
  ∀ (i : Instr) (s : State), i = .trapPuts ∨ i = .trapPutsp → s.params.trapStringReadsPoll = true →
    s.reg .r0 = s.params.kbsrAddr → s.answer = none → ∃ t, exec i s = .next t ∧ Linked s t ∧
    t.rawRead s.params.kbsrAddr = 0 ∧ (∀ a, a ≠ s.params.kbsrAddr → t.rawRead a = s.rawRead a) ∧
    t = { s.consume with regs := t.regs, mem := t.mem }

/-- R162 with polling reads (decision D9): from wherever the string begins it ends, if one of the answers that are to come is
'no byte' (log entry 2 for where they stand). -/
def Obligations.PollingStringEndsOnceNoByte : Prop :=
  ∀ (i : Instr) (s : State), i = .trapPuts ∨ i = .trapPutsp → s.params.trapStringReadsPoll = true →
    none ∈ s.input.listed → ∃ t n, StringOf s n ∧ exec i s = .next t ∧ t.run = s.run

/-- R163 (decision D12): a byte keeps its unsigned value, or with INPUT_BYTE_EXT = sign its signed value. -/
def Obligations.InputByteExtension : Prop :=
  ∀ (p : Params) (b : Byte),
    (p.inputByteExt = .zero → (extIn p b).toNat = b.toNat) ∧ (p.inputByteExt = .sign → (extIn p b).toInt = b.toInt)

/-! ### Memory and the keyboard (20_memory) -/

/-- R42: a write sets the addressed word and no other, the keyboard cells included; and R41, R44: a read is plain at every
address but KBSR_ADDR, KBDR_ADDR included where it is another address. -/
def Obligations.PlainReadAndWrite : Prop :=
  ∀ (s : State) (a v : Word), WroteWord s (s.memWrite a v) a v ∧
    (a ≠ s.params.kbsrAddr → s.memRead a = (s.rawRead a, s)) ∧
    (s.params.kbdrAddr ≠ s.params.kbsrAddr → s.memRead s.params.kbdrAddr = (s.rawRead s.params.kbdrAddr, s))

/-- R43 (decisions D12, D13, D25): the read of KBSR_ADDR takes one answer. With a byte it reads KBSR_READY and leaves the byte
in KBDR, where a read finds it; without one it reads 0 and leaves KBDR as it was. Parameters that make both cells one word
(R7, log entry 4) leave there what was written last, the byte. -/
def Obligations.KbsrRead : Prop :=
  ∀ (s t : State) (v : Word), s.memRead s.params.kbsrAddr = (v, t) →
    t.rawRead s.params.kbsrAddr = v ∧ t = { s.consume with mem := t.mem } ∧
    (∀ a, a ≠ s.params.kbsrAddr → a ≠ s.params.kbdrAddr → t.rawRead a = s.rawRead a) ∧
    (∀ b, s.answer = some b → s.params.kbdrAddr ≠ s.params.kbsrAddr →
      v = s.params.kbsrReady ∧ t.memRead s.params.kbdrAddr = (extIn s.params b, t)) ∧
    (∀ b, s.answer = some b → s.params.kbdrAddr = s.params.kbsrAddr → v = extIn s.params b) ∧
    (s.answer = none → v = 0 ∧
      (s.params.kbdrAddr ≠ s.params.kbsrAddr → t.rawRead s.params.kbdrAddr = s.rawRead s.params.kbdrAddr))

/-! ### The cycle (30_encoding R80 to R83) -/

/-- R80: a RUNNING machine fetches with `MemRead`, advances PC (wrapping), and executes the decoded word. -/
def Obligations.StepRunsDecodedInstruction : Prop :=
  ∀ (s u : State) (w : Word), s.run = .running → s.memRead s.pc = (w, u) →
    step s = exec (decode w) { u with pc := BitVec.ofNat 16 ((s.pc.toNat + 1) % 65536) }

/-- R142, R197 (decision D21): in HALTED and INPUT_CLOSED nothing changes any more. That the model has a step there at all is
its choice (log entry 8). -/
def Obligations.StoppedMachineStays : Prop :=
  ∀ (n : Nat) (s : State), s.run = .halted ∨ s.run = .inputClosed → core.run n s = .next s

/-- R170, R82: no step faults or is refused, whatever the state. -/
def Obligations.EveryStepHasNextState : Prop :=
  (∀ s : State, ∃ t, step s = .next t) ∧ ∀ (i : Instr) (s : State), ∃ t, exec i s = .next t

/-! ### Reset and the invariant (10_state R23, R31) -/

/-- R31 (the empty `out` is decision D19), for every value of the parameters, and R7's defaults (D13, D31), with which the
model's reset is built (log entry 4). -/
def Obligations.ResetState : Prop :=
  (∀ p : Params, (∀ r, (State.start p).reg r = 0) ∧ (State.start p).pc = p.pcStart ∧
    (State.start p).cond = Config.condZro ∧ (∀ a, (State.start p).rawRead a = 0) ∧ (State.start p).run = .running ∧
    (State.start p).out = [] ∧ (State.start p).params = p) ∧
  State.reset = State.start Params.default ∧ State.reset.pc = 0x3000 ∧
  Params.default.kbsrAddr = 0xFE00 ∧ Params.default.kbdrAddr = 0xFE02 ∧ Params.default.kbsrReady = 0x8000 ∧
  Params.default.haltMessage = [] ∧ Params.default.inputByteExt = .zero ∧
  Params.default.trapStringReadsPoll = false ∧ Params.default.jsrrReadBaseFirst = false

/-- The invariant of StepKeepsInvariant holds at reset, with whatever parameters the machine has. -/
def Obligations.ResetMeetsInvariant : Prop := Inv State.reset ∧ ∀ p : Params, Inv (State.start p)

/-- R23, R40, R162: every step keeps the invariant: the memory's canonical form, COND one of its three flags, DIVERGED only
while no string read of it ever returns zero. -/
def Obligations.StepKeepsInvariant : Prop := ∀ s t : State, Inv s → step s = .next t → Inv t

/-! ### Which instruction changes what -/

/-- R21. -/
def Obligations.OnlyListedRegistersChange : Prop :=
  ∀ (i : Instr) (s t : State) (r : Reg), exec i s = .next t → r ∉ writers i → t.reg r = s.reg r

/-- R25: the instructions that are not flag-setting leave COND as it is. -/
def Obligations.OnlyFlagSettersWriteCond : Prop :=
  ∀ (i : Instr) (s t : State), exec i s = .next t → flagSetting i = false → t.cond = s.cond

/-- R42, R43, R45, R47: memory changes only at the address a store computes, and at the keyboard cells by an instruction that
reads memory. -/
def Obligations.OnlyStoresAndPollsChangeMemory : Prop :=
  ∀ (i : Instr) (s t : State) (a : Word), exec i s = .next t → storeAddress i s ≠ some a →
    (reading i = true → a ≠ s.params.kbsrAddr ∧ a ≠ s.params.kbdrAddr) → t.rawRead a = s.rawRead a

/-- R22, R27, R29, R200: only control transfers write PC, only the stopping instructions write the run state, only the
routines that write output change it; no instruction changes the parameters (log entry 4). -/
def Obligations.OnlyListedInstructionsChange : Prop :=
  ∀ (i : Instr) (s t : State), exec i s = .next t →
    (transferring i = false → t.pc = s.pc) ∧ (stopping i = false → t.run = s.run) ∧
    (outputting i = false → t.out = s.out) ∧ t.params = s.params

/-- R13, R29: no step takes back output; it only appends. -/
def Obligations.OutputOnlyGrows : Prop := ∀ s t : State, step s = .next t → s.out <+: t.out

/-! ### The session (70_reset_and_hazards) -/

/-- R191, R193 (an odd last byte by decision D20): the words after the origin go to rising addresses as far as they fit, no
other word and nothing else changes. -/
def Obligations.LoadWritesImage : Prop :=
  ∀ (hi lo : Byte) (rest : List Byte) (s t : State) (res : LoadResult) (origin n : Nat),
    load ⟨hi :: lo :: rest, false⟩ s = (res, t) → origin = 256 * hi.toNat + lo.toNat →
    n = min (rest.length / 2) (65536 - origin) →
    res = .loaded (BitVec.ofNat 16 origin) n ∧
    (∀ i, i < n → (t.rawRead (BitVec.ofNat 16 (origin + i))).toNat =
      256 * (rest.getD (2 * i) 0).toNat + (rest.getD (2 * i + 1) 0).toNat) ∧
    (∀ a : Word, a.toNat < origin ∨ origin + n ≤ a.toNat → t.rawRead a = s.rawRead a) ∧
    t = { s with mem := t.mem }

/-- R194 (decision D20): fewer than two bytes is an error that writes nothing; a read failure before the capacity is used up
is an error after the words read so far. That a failure behind the capacity of R193 is never met is the model's deduction
(log entry 9). -/
def Obligations.LoadErrors : Prop :=
  (∀ (bytes : List Byte) (fails : Bool) (s : State), bytes.length < 2 → load ⟨bytes, fails⟩ s = (.loadError, s)) ∧
  (∀ (hi lo : Byte) (rest : List Byte) (s : State), rest.length / 2 < 65536 - (256 * hi.toNat + lo.toNat) →
    load ⟨hi :: lo :: rest, true⟩ s = (.loadError, (load ⟨hi :: lo :: rest, false⟩ s).2)) ∧
  (∀ (hi lo : Byte) (rest : List Byte) (s : State), 65536 - (256 * hi.toNat + lo.toNat) ≤ rest.length / 2 →
    load ⟨hi :: lo :: rest, true⟩ s = load ⟨hi :: lo :: rest, false⟩ s)

/-- R195, R193: where a second image writes, its words remain, whatever the first one wrote. Where the first is a LoadError,
R194 leaves it to the caller whether the second is loaded at all; that `loadAll` loads it is the model's choice (log
entry 13). -/
def Obligations.LaterImageWins : Prop :=
  ∀ (first : ImageStream) (hi lo : Byte) (rest : List Byte) (s : State) (a : Word),
    256 * hi.toNat + lo.toNat ≤ a.toNat → a.toNat < 256 * hi.toNat + lo.toNat + rest.length / 2 →
    (loadAll [first, ⟨hi :: lo :: rest, false⟩] s).2.rawRead a = (load ⟨hi :: lo :: rest, false⟩ s).2.rawRead a

/-- R196 (decision D19). -/
def Obligations.HostResetState : Prop :=
  ∀ s : State, (∀ r, s.hostReset.reg r = 0) ∧ s.hostReset.pc = s.params.pcStart ∧ s.hostReset.cond = Config.condZro ∧
    (∀ a, s.hostReset.rawRead a = 0) ∧ s.hostReset.out = [] ∧ s.hostReset.run = .running ∧
    s.hostReset.input = s.input ∧ s.hostReset.params = s.params

/-- R81, R197 (decision D21): `run()` cut after n steps, which stops by itself in HALTED and INPUT_CLOSED, ends where n steps
of the machine end. -/
def Obligations.RunIsRepeatedStep : Prop := ∀ (n : Nat) (s : State), runFor n s = core.run n s
end

