-- ==== Sys2Proof/Laws/Decode.lean ====
section
/-! SUPPORT. The fields of an encoded word are the fields put in, and the decoder by opcode (R60 to R70). -/

namespace Sys2Proof

@[simp] theorem Reg.ofBits_bits (r : Reg) : Reg.ofBits r.bits = r := by cases r <;> rfl

@[simp] theorem Reg.bits_ofBits (b : BitVec 3) : (Reg.ofBits b).bits = b := by
  revert b
  decide

/-! ### `word` -/

/-- The bits of a word: the operands below bit 12, the opcode above. -/
theorem getLsbD_word (op : BitVec 4) (x : BitVec 12) (i : Nat) :
    (word op x).getLsbD i = if i < 12 then x.getLsbD i else op.getLsbD (i - 12) := by
  have := BitVec.getLsbD_append (x := op) (y := x) (i := i)
  exact this

@[simp] theorem opcodeOf_word (op : BitVec 4) (x : BitVec 12) : opcodeOf (word op x) = op := by
  apply BitVec.eq_of_getLsbD_eq
  intro i hi
  simp [opcodeOf, getLsbD_word, hi]

/-- The operand bits of a word, read below bit 12. -/
theorem extract_word (op : BitVec 4) (x : BitVec 12) {lo len : Nat} (h : lo + len ≤ 12) :
    (word op x).extractLsb' lo len = x.extractLsb' lo len := by
  apply BitVec.eq_of_getLsbD_eq
  intro i hi
  have : lo + i < 12 := by omega
  simp [getLsbD_word, this]

/-- The low part of an append. -/
theorem extract_append_low {m n : Nat} (x : BitVec m) (y : BitVec n) {lo len : Nat} (h : lo + len ≤ n) :
    (x ++ y).extractLsb' lo len = y.extractLsb' lo len := by
  apply BitVec.eq_of_getLsbD_eq
  intro i hi
  have : lo + i < n := by omega
  simp [BitVec.getLsbD_append, this]

/-- The high part of an append. -/
theorem extract_append_high {m n : Nat} (x : BitVec m) (y : BitVec n) {lo len : Nat} (h : n ≤ lo) :
    (x ++ y).extractLsb' lo len = x.extractLsb' (lo - n) len := by
  apply BitVec.eq_of_getLsbD_eq
  intro i hi
  have h1 : ¬ lo + i < n := by omega
  have h2 : lo + i - n = lo - n + i := by omega
  simp [BitVec.getLsbD_append, h1, h2]

@[simp] theorem extract_all {n : Nat} (x : BitVec n) : x.extractLsb' 0 n = x := by
  apply BitVec.eq_of_getLsbD_eq
  intro i hi
  simp [hi]

/-! ### Fields of the formats -/

@[simp] theorem opcodeOf_fmtOpReg (op : BitVec 4) (d s t : Reg) : opcodeOf (fmtOpReg op d s t) = op := opcodeOf_word _ _
@[simp] theorem opcodeOf_fmtOpImm (op : BitVec 4) (d s : Reg) (i : BitVec 5) : opcodeOf (fmtOpImm op d s i) = op := opcodeOf_word _ _
@[simp] theorem opcodeOf_fmtBase (op : BitVec 4) (d s : Reg) (i : BitVec 6) : opcodeOf (fmtBase op d s i) = op := opcodeOf_word _ _
@[simp] theorem opcodeOf_fmtPcRel (op : BitVec 4) (d : Reg) (i : BitVec 9) : opcodeOf (fmtPcRel op d i) = op := opcodeOf_word _ _
@[simp] theorem opcodeOf_fmtTrap (v : BitVec 8) : opcodeOf (fmtTrap v) = 0xF := opcodeOf_word _ _

/-- Every field of format OP_REG. -/
theorem fields_fmtOpReg (op : BitVec 4) (d s t : Reg) :
    drOf (fmtOpReg op d s t) = d ∧ sr1Of (fmtOpReg op d s t) = s ∧ sr2Of (fmtOpReg op d s t) = t ∧
    (fmtOpReg op d s t).getLsbD 5 = false := by
  simp only [drOf, sr1Of, sr2Of, fmtOpReg]
  refine ⟨?_, ?_, ?_, ?_⟩
  · rw [extract_word _ _ (by omega), extract_append_high _ _ (by omega), extract_append_high _ _ (by omega), extract_append_high _ _ (by omega)]
    simp
  · rw [extract_word _ _ (by omega), extract_append_high _ _ (by omega), extract_append_high _ _ (by omega), extract_append_low _ _ (by omega)]
    simp
  · rw [extract_word _ _ (by omega), extract_append_low _ _ (by omega)]
    simp
  · rw [getLsbD_word]
    exact (BitVec.getLsbD_append (x := d.bits ++ s.bits ++ 0#3) (y := t.bits) (i := 5)).trans
      (BitVec.getLsbD_append (x := d.bits ++ s.bits) (y := 0#3) (i := 2))

/-- Every field of format OP_IMM. -/
theorem fields_fmtOpImm (op : BitVec 4) (d s : Reg) (i : BitVec 5) :
    drOf (fmtOpImm op d s i) = d ∧ sr1Of (fmtOpImm op d s i) = s ∧ imm5Of (fmtOpImm op d s i) = i ∧
    (fmtOpImm op d s i).getLsbD 5 = true := by
  simp only [drOf, sr1Of, imm5Of, fmtOpImm]
  refine ⟨?_, ?_, ?_, ?_⟩
  · rw [extract_word _ _ (by omega), extract_append_high _ _ (by omega), extract_append_high _ _ (by omega), extract_append_high _ _ (by omega)]
    simp
  · rw [extract_word _ _ (by omega), extract_append_high _ _ (by omega), extract_append_high _ _ (by omega), extract_append_low _ _ (by omega)]
    simp
  · rw [extract_word _ _ (by omega), extract_append_low _ _ (by omega)]
    simp
  · rw [getLsbD_word]
    exact (BitVec.getLsbD_append (x := d.bits ++ s.bits ++ 1#1) (y := i) (i := 5)).trans
      (BitVec.getLsbD_append (x := d.bits ++ s.bits) (y := 1#1) (i := 0))

/-- Every field of format BASE. -/
theorem fields_fmtBase (op : BitVec 4) (d s : Reg) (i : BitVec 6) :
    drOf (fmtBase op d s i) = d ∧ sr1Of (fmtBase op d s i) = s ∧ offset6Of (fmtBase op d s i) = i := by
  simp only [drOf, sr1Of, offset6Of, fmtBase]
  refine ⟨?_, ?_, ?_⟩
  · rw [extract_word _ _ (by omega), extract_append_high _ _ (by omega), extract_append_high _ _ (by omega)]
    simp
  · rw [extract_word _ _ (by omega), extract_append_high _ _ (by omega), extract_append_low _ _ (by omega)]
    simp
  · rw [extract_word _ _ (by omega), extract_append_low _ _ (by omega)]
    simp

/-- Every field of format PCREL. -/
theorem fields_fmtPcRel (op : BitVec 4) (d : Reg) (i : BitVec 9) :
    drOf (fmtPcRel op d i) = d ∧ offset9Of (fmtPcRel op d i) = i := by
  simp only [drOf, offset9Of, fmtPcRel]
  refine ⟨?_, ?_⟩
  · rw [extract_word _ _ (by omega), extract_append_high _ _ (by omega)]
    simp
  · rw [extract_word _ _ (by omega), extract_append_low _ _ (by omega)]
    simp

/-- The vector of format TRAP. -/
@[simp] theorem trapvect8Of_fmtTrap (v : BitVec 8) : trapvect8Of (fmtTrap v) = v := by
  simp only [trapvect8Of, fmtTrap]
  rw [extract_word _ _ (by omega), extract_append_low _ _ (by omega)]
  simp

/-! ### The decoder -/

theorem decodeJmp_of_ne {r : Reg} (h : r ≠ .r7) : decodeJmp r = .jmp r := by cases r <;> first | rfl | exact absurd rfl h

/-- A vector outside the table of R151 is an unknown one. -/
theorem decodeTrap_of_unknown {v : BitVec 8} (h : knownVector v = false) : decodeTrap v = .trapUnknown v := by
  revert v
  decide

theorem decodeTrap_wellFormed (v : BitVec 8) : WellFormed (decodeTrap v) := by
  revert v
  decide

theorem decodeJmp_wellFormed (r : Reg) : WellFormed (decodeJmp r) := by cases r <;> rfl

/-- An opcode is one of sixteen (R70). -/
theorem opcode_cases (P : Nat → Prop) (h : ∀ n, n < 16 → P n) (w : Word) : P (opcodeOf w).toNat := h _ (opcodeOf w).isLt

end Sys2Proof
end

