-- ==== Sys2Proof/Laws/State.lean ====
section
/-! SUPPORT. What each update of State does to each field, and to what the primitives of R11 read. -/

namespace Sys2Proof.Machine

/-! ### Registers -/

@[simp] theorem Regs.get_set (x : Regs) (r q : Reg) (v : Word) : (x.set r v).get q = if q = r then v else x.get q := by
  cases r <;> cases q <;> rfl

@[simp] theorem Regs.get_zero (r : Reg) : Regs.zero.get r = 0 := by cases r <;> rfl

/-- A register file is its eight registers. -/
theorem Regs.ext_get {x y : Regs} (h : ∀ r, x.get r = y.get r) : x = y := by
  cases x
  cases y
  have h0 := h .r0
  have h1 := h .r1
  have h2 := h .r2
  have h3 := h .r3
  have h4 := h .r4
  have h5 := h .r5
  have h6 := h .r6
  have h7 := h .r7
  simp only [Regs.get] at h0 h1 h2 h3 h4 h5 h6 h7
  simp only [h0, h1, h2, h3, h4, h5, h6, h7]

/-! ### Fields -/

@[simp] theorem State.regs_setReg (s : State) (r : Reg) (v : Word) : (s.setReg r v).regs = s.regs.set r v := rfl
@[simp] theorem State.pc_setReg (s : State) (r : Reg) (v : Word) : (s.setReg r v).pc = s.pc := rfl
@[simp] theorem State.cond_setReg (s : State) (r : Reg) (v : Word) : (s.setReg r v).cond = s.cond := rfl
@[simp] theorem State.mem_setReg (s : State) (r : Reg) (v : Word) : (s.setReg r v).mem = s.mem := rfl
@[simp] theorem State.run_setReg (s : State) (r : Reg) (v : Word) : (s.setReg r v).run = s.run := rfl
@[simp] theorem State.out_setReg (s : State) (r : Reg) (v : Word) : (s.setReg r v).out = s.out := rfl
@[simp] theorem State.input_setReg (s : State) (r : Reg) (v : Word) : (s.setReg r v).input = s.input := rfl
@[simp] theorem State.params_setReg (s : State) (r : Reg) (v : Word) : (s.setReg r v).params = s.params := rfl

@[simp] theorem State.regs_setPc (s : State) (v : Word) : (s.setPc v).regs = s.regs := rfl
@[simp] theorem State.pc_setPc (s : State) (v : Word) : (s.setPc v).pc = v := rfl
@[simp] theorem State.cond_setPc (s : State) (v : Word) : (s.setPc v).cond = s.cond := rfl
@[simp] theorem State.mem_setPc (s : State) (v : Word) : (s.setPc v).mem = s.mem := rfl
@[simp] theorem State.run_setPc (s : State) (v : Word) : (s.setPc v).run = s.run := rfl
@[simp] theorem State.out_setPc (s : State) (v : Word) : (s.setPc v).out = s.out := rfl
@[simp] theorem State.input_setPc (s : State) (v : Word) : (s.setPc v).input = s.input := rfl
@[simp] theorem State.params_setPc (s : State) (v : Word) : (s.setPc v).params = s.params := rfl

@[simp] theorem State.regs_setRun (s : State) (r : Run) : (s.setRun r).regs = s.regs := rfl
@[simp] theorem State.pc_setRun (s : State) (r : Run) : (s.setRun r).pc = s.pc := rfl
@[simp] theorem State.cond_setRun (s : State) (r : Run) : (s.setRun r).cond = s.cond := rfl
@[simp] theorem State.mem_setRun (s : State) (r : Run) : (s.setRun r).mem = s.mem := rfl
@[simp] theorem State.run_setRun (s : State) (r : Run) : (s.setRun r).run = r := rfl
@[simp] theorem State.out_setRun (s : State) (r : Run) : (s.setRun r).out = s.out := rfl
@[simp] theorem State.input_setRun (s : State) (r : Run) : (s.setRun r).input = s.input := rfl
@[simp] theorem State.params_setRun (s : State) (r : Run) : (s.setRun r).params = s.params := rfl

@[simp] theorem State.regs_setCond (s : State) (f : Flag) : (s.setCond f).regs = s.regs := rfl
@[simp] theorem State.pc_setCond (s : State) (f : Flag) : (s.setCond f).pc = s.pc := rfl
@[simp] theorem State.cond_setCond (s : State) (f : Flag) : (s.setCond f).cond = flagWord f := rfl
@[simp] theorem State.mem_setCond (s : State) (f : Flag) : (s.setCond f).mem = s.mem := rfl
@[simp] theorem State.run_setCond (s : State) (f : Flag) : (s.setCond f).run = s.run := rfl
@[simp] theorem State.out_setCond (s : State) (f : Flag) : (s.setCond f).out = s.out := rfl
@[simp] theorem State.input_setCond (s : State) (f : Flag) : (s.setCond f).input = s.input := rfl
@[simp] theorem State.params_setCond (s : State) (f : Flag) : (s.setCond f).params = s.params := rfl

@[simp] theorem State.regs_memWrite (s : State) (a v : Word) : (s.memWrite a v).regs = s.regs := rfl
@[simp] theorem State.pc_memWrite (s : State) (a v : Word) : (s.memWrite a v).pc = s.pc := rfl
@[simp] theorem State.cond_memWrite (s : State) (a v : Word) : (s.memWrite a v).cond = s.cond := rfl
@[simp] theorem State.mem_memWrite (s : State) (a v : Word) : (s.memWrite a v).mem = s.mem.setWord a v := rfl
@[simp] theorem State.run_memWrite (s : State) (a v : Word) : (s.memWrite a v).run = s.run := rfl
@[simp] theorem State.out_memWrite (s : State) (a v : Word) : (s.memWrite a v).out = s.out := rfl
@[simp] theorem State.input_memWrite (s : State) (a v : Word) : (s.memWrite a v).input = s.input := rfl
@[simp] theorem State.params_memWrite (s : State) (a v : Word) : (s.memWrite a v).params = s.params := rfl

@[simp] theorem State.regs_outWrites (s : State) (bs : List Byte) : (s.outWrites bs).regs = s.regs := rfl
@[simp] theorem State.pc_outWrites (s : State) (bs : List Byte) : (s.outWrites bs).pc = s.pc := rfl
@[simp] theorem State.cond_outWrites (s : State) (bs : List Byte) : (s.outWrites bs).cond = s.cond := rfl
@[simp] theorem State.mem_outWrites (s : State) (bs : List Byte) : (s.outWrites bs).mem = s.mem := rfl
@[simp] theorem State.run_outWrites (s : State) (bs : List Byte) : (s.outWrites bs).run = s.run := rfl
@[simp] theorem State.out_outWrites (s : State) (bs : List Byte) : (s.outWrites bs).out = s.out ++ bs := rfl
@[simp] theorem State.input_outWrites (s : State) (bs : List Byte) : (s.outWrites bs).input = s.input := rfl
@[simp] theorem State.params_outWrites (s : State) (bs : List Byte) : (s.outWrites bs).params = s.params := rfl

@[simp] theorem State.regs_placeAtPc (s : State) (w : Word) : (s.placeAtPc w).regs = s.regs := rfl
@[simp] theorem State.pc_placeAtPc (s : State) (w : Word) : (s.placeAtPc w).pc = s.pc := rfl
@[simp] theorem State.cond_placeAtPc (s : State) (w : Word) : (s.placeAtPc w).cond = s.cond := rfl
@[simp] theorem State.mem_placeAtPc (s : State) (w : Word) : (s.placeAtPc w).mem = s.mem.setWord s.pc w := rfl
@[simp] theorem State.run_placeAtPc (s : State) (w : Word) : (s.placeAtPc w).run = .running := rfl
@[simp] theorem State.out_placeAtPc (s : State) (w : Word) : (s.placeAtPc w).out = s.out := rfl
@[simp] theorem State.input_placeAtPc (s : State) (w : Word) : (s.placeAtPc w).input = s.input := rfl
@[simp] theorem State.params_placeAtPc (s : State) (w : Word) : (s.placeAtPc w).params = s.params := rfl

/-! ### What the primitives read after an update -/

@[simp] theorem State.reg_setReg (s : State) (r q : Reg) (v : Word) : (s.setReg r v).reg q = if q = r then v else s.reg q :=
  Regs.get_set s.regs r q v

@[simp] theorem State.reg_setPc (s : State) (q : Reg) (v : Word) : (s.setPc v).reg q = s.reg q := rfl
@[simp] theorem State.reg_setRun (s : State) (q : Reg) (r : Run) : (s.setRun r).reg q = s.reg q := rfl
@[simp] theorem State.reg_setCond (s : State) (q : Reg) (f : Flag) : (s.setCond f).reg q = s.reg q := rfl
@[simp] theorem State.reg_memWrite (s : State) (q : Reg) (a v : Word) : (s.memWrite a v).reg q = s.reg q := rfl
@[simp] theorem State.reg_outWrites (s : State) (q : Reg) (bs : List Byte) : (s.outWrites bs).reg q = s.reg q := rfl
@[simp] theorem State.reg_placeAtPc (s : State) (q : Reg) (w : Word) : (s.placeAtPc w).reg q = s.reg q := rfl

@[simp] theorem State.rawRead_setReg (s : State) (x : Word) (r : Reg) (v : Word) : (s.setReg r v).rawRead x = s.rawRead x := rfl
@[simp] theorem State.rawRead_setPc (s : State) (x : Word) (v : Word) : (s.setPc v).rawRead x = s.rawRead x := rfl
@[simp] theorem State.rawRead_setRun (s : State) (x : Word) (r : Run) : (s.setRun r).rawRead x = s.rawRead x := rfl
@[simp] theorem State.rawRead_setCond (s : State) (x : Word) (f : Flag) : (s.setCond f).rawRead x = s.rawRead x := rfl
@[simp] theorem State.rawRead_outWrites (s : State) (x : Word) (bs : List Byte) : (s.outWrites bs).rawRead x = s.rawRead x := rfl

@[simp] theorem State.answer_setReg (s : State) (r : Reg) (v : Word) : (s.setReg r v).answer = s.answer := rfl
@[simp] theorem State.answer_setPc (s : State) (v : Word) : (s.setPc v).answer = s.answer := rfl
@[simp] theorem State.answer_setRun (s : State) (r : Run) : (s.setRun r).answer = s.answer := rfl
@[simp] theorem State.answer_setCond (s : State) (f : Flag) : (s.setCond f).answer = s.answer := rfl
@[simp] theorem State.answer_memWrite (s : State) (a v : Word) : (s.memWrite a v).answer = s.answer := rfl
@[simp] theorem State.answer_outWrites (s : State) (bs : List Byte) : (s.outWrites bs).answer = s.answer := rfl
@[simp] theorem State.answer_placeAtPc (s : State) (w : Word) : (s.placeAtPc w).answer = s.answer := rfl

/-! ### `consume`: only the input source changes -/

@[simp] theorem State.regs_consume (s : State) : s.consume.regs = s.regs := rfl
@[simp] theorem State.pc_consume (s : State) : s.consume.pc = s.pc := rfl
@[simp] theorem State.cond_consume (s : State) : s.consume.cond = s.cond := rfl
@[simp] theorem State.mem_consume (s : State) : s.consume.mem = s.mem := rfl
@[simp] theorem State.run_consume (s : State) : s.consume.run = s.run := rfl
@[simp] theorem State.out_consume (s : State) : s.consume.out = s.out := rfl
@[simp] theorem State.params_consume (s : State) : s.consume.params = s.params := rfl
@[simp] theorem State.input_consume (s : State) : s.consume.input = s.input.consume := rfl
@[simp] theorem State.reg_consume (s : State) (q : Reg) : s.consume.reg q = s.reg q := rfl
@[simp] theorem State.rawRead_consume (s : State) (x : Word) : s.consume.rawRead x = s.rawRead x := rfl

theorem State.consume_setReg (s : State) (r : Reg) (v : Word) : (s.setReg r v).consume = s.consume.setReg r v := rfl

theorem State.consume_outWrites (s : State) (bs : List Byte) : (s.outWrites bs).consume = s.consume.outWrites bs := rfl

/-! ### The input source -/

/-- A listed answer is given and taken off the list. -/
theorem Source.of_listed {x : Source} {a : Option Byte} {rest : List (Option Byte)} (h : x.listed = a :: rest) :
    x.answer = a ∧ x.consume = { x with listed := rest } := by
  simp [Source.answer, Source.consume, Source.supply, h]

/-- With nothing listed, a source that is endless, or is drawn to be, gives a non-zero byte and stays so. -/
theorem Source.of_endless {x : Source} (h : x.listed = []) (he : x.endless = true ∨ Config.inputBurst x.draws = none) :
    ∃ n, x.answer = some (loudByte n) ∧ x.consume = ⟨[], true, n + 1⟩ := by
  obtain ⟨l, e, d⟩ := x
  dsimp only at h he
  subst h
  cases e with
  | true => exact ⟨d, rfl, rfl⟩
  | false =>
    have he : Config.inputBurst d = none := by simpa using he
    exact ⟨d + 1, by simp [Source.answer, Source.supply, he], by simp [Source.consume, Source.supply, he]⟩

/-- With nothing listed, a source draws a stretch, gives its first answer and lists the others. -/
theorem Source.of_burst {x : Source} {b : Burst} (h : x.listed = []) (he : x.endless = false)
    (hb : Config.inputBurst x.draws = some b) :
    some x.answer = b.list.head? ∧ x.consume = ⟨b.list.tail, false, x.draws + 1⟩ := by
  obtain ⟨l, e, d⟩ := x
  dsimp only at h he hb
  subst h he
  obtain ⟨as, z⟩ := b
  cases as <;> simp [Source.answer, Source.consume, Source.supply, hb, Burst.list]

/-- An endless source's bytes are not zero. -/
theorem loudByte_ne_zero (n : Nat) : loudByte n ≠ 0 := by
  have := (Config.endlessByte n).isLt
  intro h
  have h := congrArg BitVec.toNat h
  simp [loudByte] at h
  omega

end Sys2Proof.Machine
end

