-- ==== Sys2Proof/Laws/Memory.lean ====
section
/-! SUPPORT. The memory array: read after write, the canonical form, and that it determines the memory (R40, R42). -/

namespace Sys2Proof.Machine

/-! ### Bytes -/

theorem Memory.byteAt_eraseByte (m : Memory) (n k : Nat) :
    (m.eraseByte n).byteAt k = if k = n then Memory.unlisted else m.byteAt k := by
  induction m with
  | nil => simp [Memory.eraseByte, Memory.byteAt]
  | cons c rest ih =>
    simp only [Memory.eraseByte] at ih ⊢
    by_cases hc : c.1 = n
    · rw [List.filter_cons_of_neg (by simp [hc]), ih]
      by_cases hk : k = n
      · simp [hk]
      · simp [hk, Memory.byteAt, hc, Ne.symm hk]
    · rw [List.filter_cons_of_pos (by simp [hc])]
      simp only [Memory.byteAt]
      by_cases hk : c.1 = k
      · have : k ≠ n := hk ▸ hc
        simp [hk, this]
      · rw [if_neg hk, if_neg hk, ih]

theorem Memory.byteAt_insertByte (m : Memory) (n k : Nat) (b : Byte) (h : ∀ c ∈ m, c.1 ≠ n) :
    (m.insertByte n b).byteAt k = if k = n then b else m.byteAt k := by
  induction m with
  | nil => simp [Memory.insertByte, Memory.byteAt, eq_comm]
  | cons c rest ih =>
    have hc : c.1 ≠ n := h c (by simp)
    have hr : ∀ d ∈ rest, d.1 ≠ n := fun d hd => h d (by simp [hd])
    simp only [Memory.insertByte]
    split
    · simp [Memory.byteAt, eq_comm]
    · simp only [Memory.byteAt, ih hr]
      by_cases hk : c.1 = k
      · have : k ≠ n := hk ▸ hc
        simp [hk, this]
      · simp [hk]

theorem Memory.eraseByte_misses (m : Memory) (n : Nat) : ∀ c ∈ m.eraseByte n, c.1 ≠ n := by
  intro c hc
  simpa [Memory.eraseByte] using (List.mem_filter.mp hc).2

/-- A byte read after a byte write, in any memory. -/
theorem Memory.byteAt_setByte (m : Memory) (n k : Nat) (b : Byte) :
    (m.setByte n b).byteAt k = if k = n then b else m.byteAt k := by
  unfold Memory.setByte
  split
  · next hb => simp [Memory.byteAt_eraseByte, hb]
  · rw [Memory.byteAt_insertByte _ _ _ _ (Memory.eraseByte_misses m n), Memory.byteAt_eraseByte]
    by_cases hk : k = n <;> simp [hk]

/-! ### Words -/

theorem word_halves (v : Word) : v.extractLsb' 8 8 ++ v.extractLsb' 0 8 = v := by
  apply BitVec.eq_of_getLsbD_eq
  intro i hi
  simp only [BitVec.getLsbD_append, BitVec.getLsbD_extractLsb']
  by_cases h : i < 8
  · simp [h]
  · have : 8 + (i - 8) = i := by omega
    have : i - 8 < 8 := by omega
    simp [*]

/-- `M[a] <- v` sets M[a] and no other word (R42). -/
@[simp] theorem Memory.word_setWord (m : Memory) (a x v : Word) : (m.setWord a v).word x = if x = a then v else m.word x := by
  unfold Memory.word Memory.setWord
  simp only [Memory.byteAt_setByte]
  by_cases h : x = a
  · have : 2 * a.toNat ≠ 2 * a.toNat + 1 := by omega
    simp [h, word_halves]
  · have hn : x.toNat ≠ a.toNat := fun e => h (BitVec.eq_of_toNat_eq e)
    have h1 : 2 * x.toNat ≠ 2 * a.toNat + 1 := by omega
    have h2 : 2 * x.toNat ≠ 2 * a.toNat := by omega
    have h3 : 2 * x.toNat + 1 ≠ 2 * a.toNat := by omega
    simp [h, h1, h2, h3]

@[simp] theorem Memory.word_nil (x : Word) : Memory.word [] x = 0 := by
  simp [Memory.word, Memory.byteAt, Memory.unlisted]

@[simp] theorem State.rawRead_memWrite (s : State) (a x v : Word) :
    (s.memWrite a v).rawRead x = if x = a then v else s.rawRead x := Memory.word_setWord s.mem a x v

@[simp] theorem State.rawRead_placeAtPc (s : State) (x w : Word) :
    (s.placeAtPc w).rawRead x = if x = s.pc then w else s.rawRead x := Memory.word_setWord s.mem s.pc x w

/-! ### The canonical form -/

theorem Memory.mem_insertByte (m : Memory) (n : Nat) (b : Byte) (c : Host.Cell) :
    c ∈ m.insertByte n b ↔ c = (n, b) ∨ c ∈ m := by
  induction m with
  | nil => simp [Memory.insertByte]
  | cons d rest ih =>
    simp only [Memory.insertByte]
    split
    · simp
    · simp only [List.mem_cons, ih]
      tauto

theorem Memory.pairwise_insertByte (m : Memory) (n : Nat) (b : Byte) (h : m.Pairwise (fun c d => c.1 < d.1))
    (hn : ∀ c ∈ m, c.1 ≠ n) : (m.insertByte n b).Pairwise (fun c d => c.1 < d.1) := by
  induction m with
  | nil => simp [Memory.insertByte]
  | cons d rest ih =>
    rw [List.pairwise_cons] at h
    simp only [Memory.insertByte]
    split
    · next hlt =>
      rw [List.pairwise_cons]
      refine ⟨?_, by rw [List.pairwise_cons]; exact h⟩
      intro e he
      rcases List.mem_cons.mp he with rfl | he
      · exact hlt
      · exact Nat.lt_trans hlt (h.1 e he)
    · next hge =>
      have hd : d.1 ≠ n := hn d (by simp)
      rw [List.pairwise_cons]
      refine ⟨?_, ih h.2 (fun c hc => hn c (by simp [hc]))⟩
      intro e he
      rcases (Memory.mem_insertByte rest n b e).mp he with rfl | he
      · show d.1 < n
        omega
      · exact h.1 e he

/-- Writing a byte keeps the form. -/
theorem Memory.wf_setByte {m : Memory} {n : Nat} (b : Byte) (h : m.wf) (hn : n < 2 * Config.memWords) : (m.setByte n b).wf := by
  have he : (m.eraseByte n).wf :=
    ⟨h.1.filter _, fun c hc => h.2 c (List.mem_filter.mp hc).1⟩
  unfold Memory.setByte
  split
  · exact he
  · next hb =>
    refine ⟨Memory.pairwise_insertByte _ _ _ he.1 (Memory.eraseByte_misses m n), ?_⟩
    intro c hc
    rcases (Memory.mem_insertByte _ _ _ _).mp hc with rfl | hc
    · exact ⟨hn, hb⟩
    · exact he.2 c hc

/-- Writing a word keeps the form. -/
theorem Memory.wf_setWord {m : Memory} (a v : Word) (h : m.wf) : (m.setWord a v).wf := by
  have ha : a.toNat < 65536 := a.isLt
  refine Memory.wf_setByte _ (Memory.wf_setByte _ h ?_) ?_ <;> simp only [Config.memWords] <;> omega

/-- Writing an image's words keeps the form. -/
theorem Memory.wf_setWords (ws : List Word) : ∀ {m : Memory} (a : Word), m.wf → (m.setWords a ws).wf := by
  induction ws with
  | nil => exact fun _ h => h
  | cons w ws ih => exact fun a h => ih (a + 1) (Memory.wf_setWord a w h)

/-- An image's words change no address outside the range they are written to. -/
theorem Memory.word_setWords_of_below (ws : List Word) : ∀ (m : Memory) (a x : Word), a.toNat + ws.length ≤ 65536 →
    (x.toNat < a.toNat ∨ a.toNat + ws.length ≤ x.toNat) → (m.setWords a ws).word x = m.word x := by
  induction ws with
  | nil => intros; rfl
  | cons w ws ih =>
    intro m a x hfit hout
    simp only [List.length_cons] at hfit hout
    have hxa : x ≠ a := by rintro rfl; omega
    simp only [Memory.setWords]
    by_cases hlast : ws = []
    · subst hlast; simp [Memory.setWords, hxa]
    · have hpos : 0 < ws.length := List.length_pos_of_ne_nil hlast
      have hsucc : (a + 1).toNat = a.toNat + 1 := by
        rw [BitVec.toNat_add]
        exact Nat.mod_eq_of_lt (by simp; omega)
      rw [ih _ _ _ (by omega) (by omega)]
      simp [hxa]

/-- The i-th word of an image stands at its origin plus i. -/
theorem Memory.word_setWords (ws : List Word) : ∀ (m : Memory) (a : Word) (i : Nat), a.toNat + ws.length ≤ 65536 →
    (hi : i < ws.length) → (m.setWords a ws).word (a + BitVec.ofNat 16 i) = ws[i] := by
  induction ws with
  | nil => intro m a i _ hi; simp at hi
  | cons w ws ih =>
    intro m a i hfit hi
    simp only [List.length_cons] at hfit hi
    cases i with
    | zero =>
      simp only [Memory.setWords, BitVec.add_zero, List.getElem_cons_zero]
      by_cases hlast : ws = []
      · subst hlast; simp [Memory.setWords]
      · have hpos : 0 < ws.length := List.length_pos_of_ne_nil hlast
        have hsucc : (a + 1).toNat = a.toNat + 1 := by
          rw [BitVec.toNat_add]
          exact Nat.mod_eq_of_lt (by simp; omega)
        rw [Memory.word_setWords_of_below ws _ _ _ (by omega) (by omega)]
        simp
    | succ j =>
      have hsucc : (a + 1).toNat = a.toNat + 1 := by
        rw [BitVec.toNat_add]
        exact Nat.mod_eq_of_lt (by simp; omega)
      have haddr : a + BitVec.ofNat 16 (j + 1) = a + 1 + BitVec.ofNat 16 j := by
        apply BitVec.eq_of_toNat_eq
        have h1 : (1 : Word).toNat = 1 := rfl
        simp only [BitVec.toNat_add, BitVec.toNat_ofNat, h1]
        omega
      simp only [Memory.setWords, List.getElem_cons_succ]
      rw [haddr]
      exact ih _ _ _ (by omega) (by omega)

/-! ### The form determines the memory -/

theorem Memory.byteAt_of_forall_lt {m : Memory} {n : Nat} (h : ∀ c ∈ m, n < c.1) : m.byteAt n = Memory.unlisted := by
  induction m with
  | nil => rfl
  | cons c rest ih =>
    have : c.1 ≠ n := Nat.ne_of_gt (h c (by simp))
    simp [Memory.byteAt, this, ih fun d hd => h d (by simp [hd])]

/-- Two memories in canonical form that read the same everywhere are the same list. -/
theorem Memory.ext_byteAt : ∀ {m k : Memory}, m.wf → k.wf → (∀ n, m.byteAt n = k.byteAt n) → m = k
  | [], [], _, _, _ => rfl
  | [], d :: rest, _, hk, h => by
    have := h d.1
    simp only [Memory.byteAt, if_true] at this
    exact absurd this.symm (hk.2 d (by simp)).2
  | c :: rest, [], hm, _, h => by
    have := h c.1
    simp only [Memory.byteAt, if_true] at this
    exact absurd this (hm.2 c (by simp)).2
  | c :: mrest, d :: krest, hm, hk, h => by
    have hmp := List.pairwise_cons.mp hm.1
    have hkp := List.pairwise_cons.mp hk.1
    have haddr : c.1 = d.1 := by
      rcases Nat.lt_trichotomy c.1 d.1 with hlt | heq | hgt
      · have h1 : Memory.byteAt (d :: krest) c.1 = Memory.unlisted := Memory.byteAt_of_forall_lt (by
          intro e he
          rcases List.mem_cons.mp he with rfl | he
          · exact hlt
          · exact Nat.lt_trans hlt (hkp.1 e he))
        have h2 := h c.1
        rw [h1] at h2
        simp only [Memory.byteAt, if_true] at h2
        exact absurd h2 (hm.2 c (by simp)).2
      · exact heq
      · have h1 : Memory.byteAt (c :: mrest) d.1 = Memory.unlisted := Memory.byteAt_of_forall_lt (by
          intro e he
          rcases List.mem_cons.mp he with rfl | he
          · exact hgt
          · exact Nat.lt_trans hgt (hmp.1 e he))
        have h2 := h d.1
        rw [h1] at h2
        simp only [Memory.byteAt, if_true] at h2
        exact absurd h2.symm (hk.2 d (by simp)).2
    have hbyte : c.2 = d.2 := by
      have := h c.1
      simpa [Memory.byteAt, haddr] using this
    have hrest : mrest = krest := by
      refine Memory.ext_byteAt ⟨hmp.2, fun e he => hm.2 e (by simp [he])⟩ ⟨hkp.2, fun e he => hk.2 e (by simp [he])⟩ ?_
      intro n
      by_cases hn : n = c.1
      · rw [hn, Memory.byteAt_of_forall_lt hmp.1, haddr, Memory.byteAt_of_forall_lt hkp.1]
      · have h1 : c.1 ≠ n := Ne.symm hn
        have h2 : d.1 ≠ n := haddr ▸ h1
        simpa [Memory.byteAt, h1, h2] using h n
    rw [hrest, Prod.ext haddr hbyte]

theorem append_byte_inj {a b c d : Byte} (h : (a ++ b : BitVec 16) = c ++ d) : a = c ∧ b = d := by
  have hn : (a ++ b : BitVec (8 + 8)).toNat = (c ++ d : BitVec (8 + 8)).toNat := congrArg BitVec.toNat h
  rw [BitVec.toNat_append, BitVec.toNat_append, ← Nat.shiftLeft_add_eq_or_of_lt b.isLt,
    ← Nat.shiftLeft_add_eq_or_of_lt d.isLt, Nat.shiftLeft_eq, Nat.shiftLeft_eq] at hn
  have hb := b.isLt
  have hd := d.isLt
  exact ⟨BitVec.eq_of_toNat_eq (by omega), BitVec.eq_of_toNat_eq (by omega)⟩

/-- Equal memories are equal data: two memories in canonical form with the same 65536 words are the same list. -/
theorem Memory.ext_word {m k : Memory} (hm : m.wf) (hk : k.wf) (h : ∀ a, m.word a = k.word a) : m = k := by
  have hhigh : ∀ {p : Memory}, p.wf → ∀ n, 2 * Config.memWords ≤ n → p.byteAt n = Memory.unlisted := by
    intro p hp n hn
    by_cases hex : ∃ c ∈ p, c.1 = n
    · obtain ⟨c, hc, rfl⟩ := hex
      exact absurd (hp.2 c hc).1 (by omega)
    · clear hp
      induction p with
      | nil => rfl
      | cons c rest ih =>
        simp only [List.mem_cons, exists_eq_or_imp, not_or] at hex
        simp [Memory.byteAt, hex.1, ih hex.2]
  refine Memory.ext_byteAt hm hk fun n => ?_
  by_cases hn : n < 2 * Config.memWords
  · simp only [Config.memWords] at hn
    have hto : (BitVec.ofNat 16 (n / 2)).toNat = n / 2 := by
      rw [BitVec.toNat_ofNat]
      omega
    have hw := h (BitVec.ofNat 16 (n / 2))
    unfold Memory.word at hw
    rw [hto] at hw
    obtain ⟨h1, h2⟩ := append_byte_inj hw
    rcases Nat.mod_two_eq_zero_or_one n with hmod | hmod
    · rwa [show 2 * (n / 2) = n by omega] at h1
    · rwa [show 2 * (n / 2) + 1 = n by omega] at h2
  · rw [hhigh hm n (by omega), hhigh hk n (by omega)]

end Sys2Proof.Machine
end

