-- ==== Sys2Proof/Laws/Ops.lean ====
section
/-! SUPPORT. One lemma per shared operation: everything it can do. -/

namespace Sys2Proof.Machine

/-! ### Flags -/

theorem flagWord_flagOf (v : Word) : flagWord (flagOf v) = condFor v := by
  unfold flagOf condFor
  split
  · rfl
  · rw [BitVec.msb_eq_getLsbD_last]
    split <;> simp_all [flagWord]

/-- What a flag leaves in COND is legal. -/
theorem flagWord_legal (f : Flag) :
    flagWord f = Config.condPos ∨ flagWord f = Config.condZro ∨ flagWord f = Config.condNeg := by
  cases f <;> simp [flagWord]

/-- `x[DR] <- v; set_flags(v)` (R25): DR and COND, nothing else. -/
theorem State.writeResult_wrote (s : State) (r : Reg) (v : Word) : WroteResult s (s.writeResult r v) r v := by
  refine ⟨?_, ?_, ?_, ?_, rfl⟩
  · simp [State.writeResult, State.setFlags]
  · simp [State.writeResult, State.setFlags, flagWord_flagOf]
  · intro q hq
    simp [State.writeResult, State.setFlags, hq]
  · intro a
    rfl

/-! ### Offsets -/

/-- Adding a sign-extended field is adding its signed value modulo 2^16 (R10, R52). -/
theorem add_sext {n : Nat} (a : Word) (f : BitVec n) (h : n ≤ 16) : a + sext f = plusInt a f.toInt := by
  apply BitVec.eq_of_toInt_eq
  rw [plusInt, BitVec.toInt_add, BitVec.toInt_ofInt, sext, BitVec.toInt_signExtend_of_le h, BitVec.toInt_eq_toNat_bmod]
  simp

/-! ### `MemRead` and the keyboard -/

/-- The refresh changes the input and the keyboard cells (R43). Where both cells are one word, KBDR is written last. -/
theorem State.refreshKeyboard_eq (s : State) :
    s.refreshKeyboard = { s.consume with mem := s.refreshKeyboard.mem } ∧
    s.refreshKeyboard.rawRead s.params.kbsrAddr = (match s.answer with
      | some b => if s.params.kbdrAddr = s.params.kbsrAddr then extIn s.params b else s.params.kbsrReady
      | none => 0) ∧
    s.refreshKeyboard.rawRead s.params.kbdrAddr = (match s.answer with
      | some b => extIn s.params b
      | none => if s.params.kbdrAddr = s.params.kbsrAddr then 0 else s.rawRead s.params.kbdrAddr) ∧
    ∀ a, a ≠ s.params.kbsrAddr → a ≠ s.params.kbdrAddr → s.refreshKeyboard.rawRead a = s.rawRead a := by
  unfold State.refreshKeyboard
  cases hans : s.answer with
  | some b =>
    refine ⟨rfl, ?_, ?_, ?_⟩
    · simp [eq_comm]
    · simp
    · intro a h1 h2
      simp [h1, h2]
  | none =>
    refine ⟨rfl, ?_, ?_, ?_⟩
    · simp
    · simp
    · intro a h1 _
      simp [h1]

/-- A read at any other address is plain (R41). -/
theorem State.afterRead_of_ne (s : State) {a : Word} (h : a ≠ s.params.kbsrAddr) : s.afterRead a = s := by
  simp [State.afterRead, h]

theorem State.afterRead_kbsr (s : State) : s.afterRead s.params.kbsrAddr = s.refreshKeyboard := by simp [State.afterRead]

/-- Whatever the address, a read changes only the input and the keyboard cells. -/
theorem State.afterRead_eq (s : State) (a : Word) :
    s.afterRead a = { s with mem := (s.afterRead a).mem, input := (s.afterRead a).input } ∧
    ∀ b, b ≠ s.params.kbsrAddr → b ≠ s.params.kbdrAddr → (s.afterRead a).rawRead b = s.rawRead b := by
  by_cases h : a = s.params.kbsrAddr
  · subst h
    rw [State.afterRead_kbsr]
    obtain ⟨h1, -, -, h4⟩ := State.refreshKeyboard_eq s
    refine ⟨?_, h4⟩
    rw [h1]
    rfl
  · rw [State.afterRead_of_ne s h]
    exact ⟨rfl, fun _ _ _ => rfl⟩

@[simp] theorem State.regs_afterRead (s : State) (a : Word) : (s.afterRead a).regs = s.regs := by rw [(s.afterRead_eq a).1]
@[simp] theorem State.pc_afterRead (s : State) (a : Word) : (s.afterRead a).pc = s.pc := by rw [(s.afterRead_eq a).1]
@[simp] theorem State.cond_afterRead (s : State) (a : Word) : (s.afterRead a).cond = s.cond := by rw [(s.afterRead_eq a).1]
@[simp] theorem State.run_afterRead (s : State) (a : Word) : (s.afterRead a).run = s.run := by rw [(s.afterRead_eq a).1]
@[simp] theorem State.out_afterRead (s : State) (a : Word) : (s.afterRead a).out = s.out := by rw [(s.afterRead_eq a).1]
@[simp] theorem State.params_afterRead (s : State) (a : Word) : (s.afterRead a).params = s.params := by
  rw [(s.afterRead_eq a).1]
@[simp] theorem State.reg_afterRead (s : State) (a : Word) (r : Reg) : (s.afterRead a).reg r = s.reg r := by
  simp [State.reg]

@[simp] theorem State.memRead_snd (s : State) (a : Word) : (s.memRead a).2 = s.afterRead a := rfl
@[simp] theorem State.memRead_fst (s : State) (a : Word) : (s.memRead a).1 = (s.afterRead a).rawRead a := rfl

/-- A read keeps the memory's canonical form. -/
theorem State.wf_afterRead {s : State} (a : Word) (h : s.mem.wf) : (s.afterRead a).mem.wf := by
  have hc : s.consume.mem.wf := by simpa using h
  unfold State.afterRead State.refreshKeyboard
  split
  · split
    · simpa using Memory.wf_setWord _ _ (Memory.wf_setWord _ _ hc)
    · simpa using Memory.wf_setWord _ _ hc
  · exact h

/-! ### Traps -/

/-- Trap entry writes R7 and nothing else (R150, R174). -/
theorem State.enterTrap_linked (s : State) : Linked s s.enterTrap :=
  ⟨rfl, fun r h => by simp [State.enterTrap, h]⟩

/-- `InRead` answered with a byte (R152, R156): R0 and COND from the byte, the echo, one answer used up. -/
theorem State.readChar_of_byte {s : State} {b : Byte} (echo : Byte → List Byte) (h : s.answer = some b) :
    (s.readChar echo).reg .r0 = extIn s.params b ∧ (s.readChar echo).cond = condFor (extIn s.params b) ∧
    (∀ r, r ≠ .r0 → (s.readChar echo).reg r = s.reg r) ∧
    s.readChar echo = { s.consume with
      regs := (s.readChar echo).regs, cond := (s.readChar echo).cond, out := s.out ++ echo b } := by
  obtain ⟨h1, h2, h3, -, h5⟩ :=
    State.writeResult_wrote (s.consume.outWrites (echo b)) .r0 (extIn s.params b)
  unfold State.readChar
  simp only [h]
  refine ⟨h1, h2, fun r hr => (h3 r hr).trans (by simp), ?_⟩
  refine h5.trans ?_
  simp [State.outWrites]

/-- `InRead` answered with `Closed` (R153): R0 and COND are free, COND legal, and the run is over. -/
theorem State.readChar_of_closed {s : State} (echo : Byte → List Byte) (h : s.answer = none) :
    (s.readChar echo).run = .inputClosed ∧ CondLegal (s.readChar echo) ∧
    (∀ r, r ≠ .r0 → (s.readChar echo).reg r = s.reg r) ∧ (s.readChar echo).pc = s.pc ∧
    (s.readChar echo).mem = s.mem ∧ (s.readChar echo).out = s.out ∧ (s.readChar echo).params = s.params := by
  have hreg : ∀ (u : State) (r : Reg), r ≠ .r0 → u.inputClosed.reg r = u.reg r := by
    intro u r hr
    exact (Regs.get_set u.regs .r0 r (Config.closedWord u.input.draws)).trans (if_neg hr)
  unfold State.readChar
  simp only [h]
  refine ⟨rfl, flagWord_legal _, fun r hr => (hreg _ r hr).trans (by simp), ?_, ?_, ?_, ?_⟩ <;> simp [State.inputClosed]

/-- The low byte of a word as a number (R154, R155). -/
theorem lowByte_eq (v : Word) : v.extractLsb' 0 8 = BitVec.ofNat 8 (v.toNat % 256) := by
  apply BitVec.eq_of_toNat_eq
  simp [BitVec.extractLsb'_toNat]

/-- What PUTSP writes for a word (R157). -/
theorem stringBytes_putsp (w : Word) : stringBytes .putsp w = putspBytes w := by
  unfold stringBytes putspBytes nonZeroByte
  by_cases h : w.extractLsb' 0 8 = 0 <;> by_cases h2 : w.extractLsb' 8 8 = 0 <;> simp_all

end Sys2Proof.Machine
end

