-- ==== Sys2Proof/Laws/PerInstr.lean ====
section
/-! SUPPORT. Statements for all instructions, one lemma per constructor. -/

namespace Sys2Proof.Laws

/-- The encoder puts the instruction's own opcode of R70 in bits [15:12]. -/
def EncodedOpcode.Statement (i : Instr) : Prop := opcodeOf (encode i) = i.opcode

theorem EncodedOpcode.addReg (dr sr1 sr2 : Reg) : EncodedOpcode.Statement (.addReg dr sr1 sr2) := opcodeOf_word _ _
theorem EncodedOpcode.addImm (dr sr1 : Reg) (imm5 : BitVec 5) : EncodedOpcode.Statement (.addImm dr sr1 imm5) := opcodeOf_word _ _
theorem EncodedOpcode.andReg (dr sr1 sr2 : Reg) : EncodedOpcode.Statement (.andReg dr sr1 sr2) := opcodeOf_word _ _
theorem EncodedOpcode.andImm (dr sr1 : Reg) (imm5 : BitVec 5) : EncodedOpcode.Statement (.andImm dr sr1 imm5) := opcodeOf_word _ _
theorem EncodedOpcode.not (dr sr : Reg) : EncodedOpcode.Statement (.not dr sr) := opcodeOf_word _ _
theorem EncodedOpcode.br (n z p : Bool) (off : BitVec 9) : EncodedOpcode.Statement (.br n z p off) := opcodeOf_word _ _
theorem EncodedOpcode.jmp (base : Reg) : EncodedOpcode.Statement (.jmp base) := opcodeOf_word _ _
theorem EncodedOpcode.ret : EncodedOpcode.Statement .ret := rfl
theorem EncodedOpcode.jsr (off : BitVec 11) : EncodedOpcode.Statement (.jsr off) := opcodeOf_word _ _
theorem EncodedOpcode.jsrr (base : Reg) : EncodedOpcode.Statement (.jsrr base) := opcodeOf_word _ _
theorem EncodedOpcode.ld (dr : Reg) (off : BitVec 9) : EncodedOpcode.Statement (.ld dr off) := opcodeOf_word _ _
theorem EncodedOpcode.ldi (dr : Reg) (off : BitVec 9) : EncodedOpcode.Statement (.ldi dr off) := opcodeOf_word _ _
theorem EncodedOpcode.ldr (dr base : Reg) (off : BitVec 6) : EncodedOpcode.Statement (.ldr dr base off) := opcodeOf_word _ _
theorem EncodedOpcode.lea (dr : Reg) (off : BitVec 9) : EncodedOpcode.Statement (.lea dr off) := opcodeOf_word _ _
theorem EncodedOpcode.st (sr : Reg) (off : BitVec 9) : EncodedOpcode.Statement (.st sr off) := opcodeOf_word _ _
theorem EncodedOpcode.sti (sr : Reg) (off : BitVec 9) : EncodedOpcode.Statement (.sti sr off) := opcodeOf_word _ _
theorem EncodedOpcode.str (sr base : Reg) (off : BitVec 6) : EncodedOpcode.Statement (.str sr base off) := opcodeOf_word _ _
theorem EncodedOpcode.rti : EncodedOpcode.Statement .rti := rfl
theorem EncodedOpcode.res : EncodedOpcode.Statement .res := rfl
theorem EncodedOpcode.trapGetc : EncodedOpcode.Statement .trapGetc := rfl
theorem EncodedOpcode.trapOut : EncodedOpcode.Statement .trapOut := rfl
theorem EncodedOpcode.trapPuts : EncodedOpcode.Statement .trapPuts := rfl
theorem EncodedOpcode.trapIn : EncodedOpcode.Statement .trapIn := rfl
theorem EncodedOpcode.trapPutsp : EncodedOpcode.Statement .trapPutsp := rfl
theorem EncodedOpcode.trapHalt : EncodedOpcode.Statement .trapHalt := rfl
theorem EncodedOpcode.trapUnknown (v : BitVec 8) : EncodedOpcode.Statement (.trapUnknown v) := opcodeOf_word _ _

end Sys2Proof.Laws
end

