-- ==== Sys2Proof/Laws/Strings.lean ====
section
/-! SUPPORT. The string routines (R155, R157, R160 to R162): what their reads change, and that a routine ends at the first
zero read or else is DIVERGED. -/

namespace Sys2Proof.Machine

/-! ### String reads -/

/-- A string read whose address is not the status cell, or that does not poll, is plain (R160). -/
theorem State.strRead_plain {s : State} {a : Word} (h : s.params.trapStringReadsPoll = false ∨ a ≠ s.params.kbsrAddr) :
    s.strRead a = (s.rawRead a, s) := by
  unfold State.strRead
  split
  · next hp =>
    rcases h with h | h
    · simp [hp] at h
    · simp [State.memRead, State.afterRead_of_ne s h]
  · rfl

theorem State.strRead_poll {s : State} (a : Word) (h : s.params.trapStringReadsPoll = true) : s.strRead a = s.memRead a := by
  simp [State.strRead, h]

/-- A string read changes only the input and the keyboard cells. -/
theorem State.strRead_eq (s : State) (a : Word) :
    (s.strRead a).2 = { s with mem := (s.strRead a).2.mem, input := (s.strRead a).2.input } ∧
    (∀ b, b ≠ s.params.kbsrAddr → b ≠ s.params.kbdrAddr → (s.strRead a).2.rawRead b = s.rawRead b) ∧
    (s.mem.wf → (s.strRead a).2.mem.wf) := by
  unfold State.strRead
  split
  · exact ⟨(s.afterRead_eq a).1, (s.afterRead_eq a).2, fun h => State.wf_afterRead a h⟩
  · exact ⟨rfl, fun _ _ _ => rfl, fun h => h⟩

@[simp] theorem State.regs_strRead (s : State) (a : Word) : (s.strRead a).2.regs = s.regs := by rw [(s.strRead_eq a).1]
@[simp] theorem State.pc_strRead (s : State) (a : Word) : (s.strRead a).2.pc = s.pc := by rw [(s.strRead_eq a).1]
@[simp] theorem State.cond_strRead (s : State) (a : Word) : (s.strRead a).2.cond = s.cond := by rw [(s.strRead_eq a).1]
@[simp] theorem State.run_strRead (s : State) (a : Word) : (s.strRead a).2.run = s.run := by rw [(s.strRead_eq a).1]
@[simp] theorem State.out_strRead (s : State) (a : Word) : (s.strRead a).2.out = s.out := by rw [(s.strRead_eq a).1]
@[simp] theorem State.params_strRead (s : State) (a : Word) : (s.strRead a).2.params = s.params := by rw [(s.strRead_eq a).1]

theorem State.afterRead_outWrites (s : State) (bs : List Byte) (a : Word) :
    (s.outWrites bs).afterRead a = (s.afterRead a).outWrites bs := by
  have ha : (s.outWrites bs).answer = s.answer := rfl
  unfold State.afterRead State.refreshKeyboard
  rw [ha]
  by_cases h : a = s.params.kbsrAddr
  · simp only [State.params_outWrites, h, if_true]
    cases s.answer <;> rfl
  · simp [h]

theorem State.strRead_outWrites (s : State) (bs : List Byte) (a : Word) :
    (s.outWrites bs).strRead a = ((s.strRead a).1, (s.strRead a).2.outWrites bs) := by
  unfold State.strRead
  cases h : s.params.trapStringReadsPoll <;> simp [h, State.memRead, State.afterRead_outWrites]

theorem State.afterRead_setReg (s : State) (r : Reg) (v a : Word) :
    (s.setReg r v).afterRead a = (s.afterRead a).setReg r v := by
  have ha : (s.setReg r v).answer = s.answer := rfl
  unfold State.afterRead State.refreshKeyboard
  rw [ha]
  by_cases h : a = s.params.kbsrAddr
  · simp only [State.params_setReg, h, if_true]
    cases s.answer <;> rfl
  · simp [h]

theorem State.strRead_setReg (s : State) (r : Reg) (v a : Word) :
    (s.setReg r v).strRead a = ((s.strRead a).1, (s.strRead a).2.setReg r v) := by
  unfold State.strRead
  cases h : s.params.trapStringReadsPoll <;> simp [h, State.memRead, State.afterRead_setReg]

theorem State.afterRead_setRun (s : State) (r : Run) (a : Word) : (s.setRun r).afterRead a = (s.afterRead a).setRun r := by
  have ha : (s.setRun r).answer = s.answer := rfl
  unfold State.afterRead State.refreshKeyboard
  rw [ha]
  by_cases h : a = s.params.kbsrAddr
  · simp only [State.params_setRun, h, if_true]
    cases s.answer <;> rfl
  · simp [h]

theorem State.strRead_setRun (s : State) (r : Run) (a : Word) :
    (s.setRun r).strRead a = ((s.strRead a).1, (s.strRead a).2.setRun r) := by
  unfold State.strRead
  cases h : s.params.trapStringReadsPoll <;> simp [h, State.memRead, State.afterRead_setRun]

/-! ### Sequences of string reads -/

theorem ofNat_succ_add (a : Word) (i : Nat) : a + 1 + BitVec.ofNat 16 i = a + BitVec.ofNat 16 (i + 1) := by
  rw [Nat.add_comm i 1, BitVec.ofNat_add, ← BitVec.add_assoc]
  rfl

theorem ofNat_add_add (a : Word) (m n : Nat) :
    a + BitVec.ofNat 16 m + BitVec.ofNat 16 n = a + BitVec.ofNat 16 (m + n) := by
  rw [BitVec.ofNat_add, BitVec.add_assoc]

/-- Whole passes come back to where they began (R161). -/
theorem add_passes (a : Word) (p : Nat) : a + BitVec.ofNat 16 (65536 * p) = a := by
  have : BitVec.ofNat 16 (65536 * p) = 0#16 := by
    apply BitVec.eq_of_toNat_eq
    simp
  rw [this, BitVec.add_zero]

/-- Any number of string reads changes only the input and the keyboard cells. -/
theorem State.afterReads_eq : ∀ (n : Nat) (a : Word) (s : State),
    s.afterReads n a = { s with mem := (s.afterReads n a).mem, input := (s.afterReads n a).input } ∧
    (∀ b, b ≠ s.params.kbsrAddr → b ≠ s.params.kbdrAddr → (s.afterReads n a).rawRead b = s.rawRead b) ∧
    (s.mem.wf → (s.afterReads n a).mem.wf)
  | 0, _, _ => ⟨rfl, fun _ _ _ => rfl, fun h => h⟩
  | n + 1, a, s => by
    obtain ⟨h1, h2, h3⟩ := s.strRead_eq a
    obtain ⟨i1, i2, i3⟩ := State.afterReads_eq n (a + 1) (s.strRead a).2
    have hp : (s.strRead a).2.params = s.params := by rw [h1]
    rw [hp] at i2
    refine ⟨?_, fun b hk hd => (i2 b hk hd).trans (h2 b hk hd), fun h => i3 (h3 h)⟩
    refine i1.trans ?_
    show _ = { s with mem := (State.afterReads n (a + 1) (s.strRead a).2).mem,
                      input := (State.afterReads n (a + 1) (s.strRead a).2).input }
    generalize State.afterReads n (a + 1) (s.strRead a).2 = u
    rw [h1]

@[simp] theorem State.regs_afterReads (s : State) (n : Nat) (a : Word) : (s.afterReads n a).regs = s.regs := by
  rw [(State.afterReads_eq n a s).1]
@[simp] theorem State.pc_afterReads (s : State) (n : Nat) (a : Word) : (s.afterReads n a).pc = s.pc := by
  rw [(State.afterReads_eq n a s).1]
@[simp] theorem State.cond_afterReads (s : State) (n : Nat) (a : Word) : (s.afterReads n a).cond = s.cond := by
  rw [(State.afterReads_eq n a s).1]
@[simp] theorem State.run_afterReads (s : State) (n : Nat) (a : Word) : (s.afterReads n a).run = s.run := by
  rw [(State.afterReads_eq n a s).1]
@[simp] theorem State.out_afterReads (s : State) (n : Nat) (a : Word) : (s.afterReads n a).out = s.out := by
  rw [(State.afterReads_eq n a s).1]
@[simp] theorem State.params_afterReads (s : State) (n : Nat) (a : Word) : (s.afterReads n a).params = s.params := by
  rw [(State.afterReads_eq n a s).1]

theorem State.afterReads_add : ∀ (m n : Nat) (a : Word) (s : State),
    s.afterReads (m + n) a = (s.afterReads m a).afterReads n (a + BitVec.ofNat 16 m)
  | 0, n, a, s => by simp [State.afterReads]
  | m + 1, n, a, s => by
    rw [show m + 1 + n = (m + n) + 1 by omega]
    show (s.strRead a).2.afterReads (m + n) (a + 1) = ((s.strRead a).2.afterReads m (a + 1)).afterReads n _
    rw [State.afterReads_add m n, ofNat_succ_add]

theorem State.afterReads_succ (n : Nat) (a : Word) (s : State) :
    s.afterReads (n + 1) a = ((s.afterReads n a).strRead (a + BitVec.ofNat 16 n)).2 := State.afterReads_add n 1 a s

theorem State.stringRead_add (s : State) (a : Word) (m n : Nat) :
    s.stringRead a (m + n) = (s.afterReads m a).stringRead (a + BitVec.ofNat 16 m) n := by
  unfold State.stringRead
  rw [State.afterReads_add, ofNat_add_add]

theorem State.stringRead_succ (s : State) (a : Word) (n : Nat) :
    s.stringRead a (n + 1) = (s.strRead a).2.stringRead (a + 1) n := by
  rw [Nat.add_comm, State.stringRead_add]
  rfl

theorem State.stringRead_zero (s : State) (a : Word) : s.stringRead a 0 = (s.strRead a).1 := by
  simp [State.stringRead, State.afterReads]

theorem State.afterReads_outWrites (bs : List Byte) : ∀ (n : Nat) (a : Word) (s : State),
    (s.outWrites bs).afterReads n a = (s.afterReads n a).outWrites bs
  | 0, _, _ => rfl
  | n + 1, a, s => by
    show ((s.outWrites bs).strRead a).2.afterReads n (a + 1) = ((s.strRead a).2.afterReads n (a + 1)).outWrites bs
    rw [State.strRead_outWrites, State.afterReads_outWrites bs n]

theorem State.afterReads_setReg (r : Reg) (v : Word) : ∀ (n : Nat) (a : Word) (s : State),
    (s.setReg r v).afterReads n a = (s.afterReads n a).setReg r v
  | 0, _, _ => rfl
  | n + 1, a, s => by
    show ((s.setReg r v).strRead a).2.afterReads n (a + 1) = ((s.strRead a).2.afterReads n (a + 1)).setReg r v
    rw [State.strRead_setReg, State.afterReads_setReg r v n]

theorem State.afterReads_setRun (r : Run) : ∀ (n : Nat) (a : Word) (s : State),
    (s.setRun r).afterReads n a = (s.afterReads n a).setRun r
  | 0, _, _ => rfl
  | n + 1, a, s => by
    show ((s.setRun r).strRead a).2.afterReads n (a + 1) = ((s.strRead a).2.afterReads n (a + 1)).setRun r
    rw [State.strRead_setRun, State.afterReads_setRun r n]

@[simp] theorem State.stringRead_setRun (s : State) (r : Run) (a : Word) (n : Nat) :
    (s.setRun r).stringRead a n = s.stringRead a n := by
  simp [State.stringRead, State.afterReads_setRun, State.strRead_setRun]

@[simp] theorem State.stringRead_outWrites (s : State) (bs : List Byte) (a : Word) (n : Nat) :
    (s.outWrites bs).stringRead a n = s.stringRead a n := by
  simp [State.stringRead, State.afterReads_outWrites, State.strRead_outWrites]

@[simp] theorem State.stringRead_setReg (s : State) (r : Reg) (v a : Word) (n : Nat) :
    (s.setReg r v).stringRead a n = s.stringRead a n := by
  simp [State.stringRead, State.afterReads_setReg, State.strRead_setReg]

/-- Without polling the reads change nothing, and read what memory holds. -/
theorem State.afterReads_of_raw : ∀ (n : Nat) (a : Word) {s : State}, s.params.trapStringReadsPoll = false →
    s.afterReads n a = s
  | 0, _, _, _ => rfl
  | n + 1, a, s, h => by
    show (s.strRead a).2.afterReads n (a + 1) = s
    rw [State.strRead_plain (.inl h)]
    exact State.afterReads_of_raw n (a + 1) h

theorem State.stringRead_of_raw {s : State} (a : Word) (n : Nat) (h : s.params.trapStringReadsPoll = false) :
    s.stringRead a n = s.rawRead (a + BitVec.ofNat 16 n) := by
  rw [State.stringRead, State.afterReads_of_raw n a h, State.strRead_plain (.inl h)]

/-! ### The loop -/

/-- The bytes that the first `n` reads from `a` give. -/
def stringRun (k : StringKind) (s : State) (a : Word) (n : Nat) : List Byte :=
  (List.range n).flatMap fun i => stringBytes k (s.stringRead a i)

theorem stringRun_succ (k : StringKind) (s : State) (a : Word) (n : Nat) :
    stringRun k s a (n + 1) = stringBytes k (s.strRead a).1 ++ stringRun k (s.strRead a).2 (a + 1) n := by
  unfold stringRun
  rw [List.range_succ_eq_map, List.flatMap_cons, List.flatMap_map, State.stringRead_zero]
  simp only [Nat.succ_eq_add_one, State.stringRead_succ]

theorem stringRun_add (k : StringKind) : ∀ (m n : Nat) (s : State) (a : Word),
    stringRun k s a (m + n) = stringRun k s a m ++ stringRun k (s.afterReads m a) (a + BitVec.ofNat 16 m) n
  | 0, n, s, a => by simp [stringRun, State.afterReads]
  | m + 1, n, s, a => by
    rw [show m + 1 + n = (m + n) + 1 by omega, stringRun_succ, stringRun_succ, stringRun_add k m n, List.append_assoc,
      ofNat_succ_add]
    rfl

theorem stringRun_outWrites (k : StringKind) (s : State) (bs : List Byte) (a : Word) (n : Nat) :
    stringRun k (s.outWrites bs) a n = stringRun k s a n := by simp [stringRun]

theorem State.outWrites_outWrites (s : State) (bs cs : List Byte) :
    (s.outWrites bs).outWrites cs = s.outWrites (bs ++ cs) := by simp [State.outWrites]

/-- The loop over `n` non-zero reads: their bytes are written, and it stands at the word after them. -/
theorem stringLoop_run (k : StringKind) : ∀ (n : Nat) (a : Word) (s : State) (m : Nat),
    (∀ i, i < n → s.stringRead a i ≠ 0) →
    stringLoop k (n + m) a s =
      stringLoop k m (a + BitVec.ofNat 16 n) ((s.afterReads n a).outWrites (stringRun k s a n))
  | 0, a, s, m, _ => by
    simp [stringRun, State.outWrites, State.afterReads]
  | n + 1, a, s, m, hz => by
    have h0 : (s.strRead a).1 ≠ 0 := by simpa [State.stringRead_zero] using hz 0 (by omega)
    rw [show n + 1 + m = (n + m) + 1 by omega, stringLoop, if_neg h0, stringLoop_run k n (a + 1) _ m, ofNat_succ_add,
      State.afterReads_outWrites, stringRun_outWrites, State.outWrites_outWrites, ← stringRun_succ]
    · rfl
    · intro i hi
      rw [State.stringRead_outWrites, ← State.stringRead_succ]
      exact hz (i + 1) (by omega)

/-- The loop with a zero read within its fuel. -/
theorem stringLoop_terminated (k : StringKind) (n m : Nat) (a : Word) (s : State)
    (hz : ∀ i, i < n → s.stringRead a i ≠ 0) (hend : s.stringRead a n = 0) :
    stringLoop k (n + (m + 1)) a s = ((s.afterReads (n + 1) a).outWrites (stringRun k s a n), none) := by
  rw [stringLoop_run k n a s (m + 1) hz, stringLoop, State.strRead_outWrites, State.afterReads_succ]
  have : ((s.afterReads n a).strRead (a + BitVec.ofNat 16 n)).1 = 0 := hend
  simp [this]

/-- The loop with no zero read within its fuel. -/
theorem stringLoop_unfinished (k : StringKind) (n : Nat) (a : Word) (s : State)
    (hz : ∀ i, i < n → s.stringRead a i ≠ 0) :
    stringLoop k n a s = ((s.afterReads n a).outWrites (stringRun k s a n), some (a + BitVec.ofNat 16 n)) := by
  have := stringLoop_run k n a s 0 hz
  simpa [stringLoop] using this

/-- The first zero among the first `f` reads, or none. -/
theorem firstZero (s : State) (a : Word) (f : Nat) :
    (∃ n, n < f ∧ (∀ i, i < n → s.stringRead a i ≠ 0) ∧ s.stringRead a n = 0) ∨ ∀ i, i < f → s.stringRead a i ≠ 0 := by
  by_cases hall : ∀ i, i < f → s.stringRead a i ≠ 0
  · exact .inr hall
  · have hex : ∃ n, n < f ∧ s.stringRead a n = 0 := by
      simp only [not_forall, not_not] at hall
      obtain ⟨n, hn, h⟩ := hall
      exact ⟨n, hn, h⟩
    obtain ⟨hlt, hend⟩ := Nat.find_spec hex
    exact .inl ⟨Nat.find hex, hlt, fun i hi h0 => Nat.find_min hex hi ⟨by omega, h0⟩, hend⟩

/-- Some passes of the loop: it ends at the first zero read, or none of their reads is zero. -/
theorem State.stringPasses_cases (s : State) (k : StringKind) (a : Word) :
    (∃ n, (∀ i, i < n → s.stringRead a i ≠ 0) ∧ s.stringRead a n = 0 ∧
      s.stringPasses k a = ((s.afterReads (n + 1) a).outWrites (stringRun k s a n), none)) ∨
    ((∀ i, i < 65536 * s.passes → s.stringRead a i ≠ 0) ∧
      s.stringPasses k a =
        ((s.afterReads (65536 * s.passes) a).outWrites (stringRun k s a (65536 * s.passes)), some a)) := by
  unfold State.stringPasses Config.memWords
  rcases firstZero s a (65536 * s.passes) with ⟨n, hn, hz, hend⟩ | hz
  · obtain ⟨m, hm⟩ : ∃ m, 65536 * s.passes = n + (m + 1) := ⟨65536 * s.passes - n - 1, by omega⟩
    exact .inl ⟨n, hz, hend, by rw [hm, stringLoop_terminated k n m a s hz hend]⟩
  · exact .inr ⟨hz, by rw [stringLoop_unfinished k _ a s hz, add_passes]⟩

/-! ### Whole passes with polling reads -/

/-- Every address is one of the 65536 that a pass from `a` reads (R161). -/
theorem exists_offset (a x : Word) : ∃ i, i < 65536 ∧ a + BitVec.ofNat 16 i = x :=
  ⟨(x - a).toNat, (x - a).isLt, by
    rw [BitVec.ofNat_toNat, BitVec.setWidth_eq, BitVec.add_comm, BitVec.sub_add_cancel]⟩

theorem offset_inj {a : Word} {i j : Nat} (hi : i < 65536) (hj : j < 65536)
    (h : a + BitVec.ofNat 16 i = a + BitVec.ofNat 16 j) : i = j := by
  have h := congrArg BitVec.toNat ((BitVec.add_right_inj a).mp h)
  simpa [Nat.mod_eq_of_lt hi, Nat.mod_eq_of_lt hj] using h

@[simp] theorem State.params_refreshKeyboard (s : State) : s.refreshKeyboard.params = s.params := by
  rw [s.refreshKeyboard_eq.1]; rfl
@[simp] theorem State.input_refreshKeyboard (s : State) : s.refreshKeyboard.input = s.input.consume := by
  rw [s.refreshKeyboard_eq.1]; rfl

/-- The reads of one pass poll once, when they come to the status cell. -/
theorem State.afterReads_pass {s : State} {a : Word} {j : Nat} (hp : s.params.trapStringReadsPoll = true) (hj : j < 65536)
    (hk : a + BitVec.ofNat 16 j = s.params.kbsrAddr) : ∀ n, n ≤ 65536 →
    s.afterReads n a = if n ≤ j then s else s.refreshKeyboard
  | 0, _ => by simp [State.afterReads]
  | n + 1, hn => by
    rw [State.afterReads_succ, State.afterReads_pass hp hj hk n (by omega)]
    rcases Nat.lt_trichotomy n j with h | h | h
    · have hne : a + BitVec.ofNat 16 n ≠ s.params.kbsrAddr := fun h' =>
        absurd (offset_inj (by omega) hj (h'.trans hk.symm)) (by omega)
      rw [if_pos (by omega), if_pos (by omega), State.strRead_plain (.inr hne)]
    · subst h
      rw [if_pos (by omega), if_neg (by omega), State.strRead_poll _ hp, hk, State.memRead_snd, State.afterRead_kbsr]
    · have hne : a + BitVec.ofNat 16 n ≠ s.refreshKeyboard.params.kbsrAddr := fun h' =>
        absurd (offset_inj (by omega) hj (h'.trans ((congrArg Params.kbsrAddr s.params_refreshKeyboard).trans hk.symm)))
          (by omega)
      rw [if_neg (by omega), if_neg (by omega), State.strRead_plain (.inr hne)]

/-- What a pass reads: the memory before its poll as far as the status cell, and the memory after it from there on. -/
theorem State.stringRead_pass {s : State} {a : Word} {j i : Nat} (hp : s.params.trapStringReadsPoll = true) (hj : j < 65536)
    (hk : a + BitVec.ofNat 16 j = s.params.kbsrAddr) (hi : i < 65536) :
    s.stringRead a i =
      if i < j then s.rawRead (a + BitVec.ofNat 16 i) else s.refreshKeyboard.rawRead (a + BitVec.ofNat 16 i) := by
  have hread : s.stringRead a i = (s.afterReads (i + 1) a).rawRead (a + BitVec.ofNat 16 i) := by
    rw [State.afterReads_succ, State.stringRead, State.strRead_poll _ (by rw [State.params_afterReads]; exact hp)]
    rfl
  rw [hread, State.afterReads_pass hp hj hk _ (by omega)]
  by_cases h : i < j
  · rw [if_pos (by omega), if_pos h]
  · rw [if_neg (by omega), if_neg h]

/-- No read of one pass from `a` is zero. -/
def State.NonzeroPass (s : State) (a : Word) : Prop := ∀ i, i < 65536 → s.stringRead a i ≠ 0

/-- The state after `p` passes with polling reads: `p` polls. -/
theorem State.afterReads_passes {a : Word} : ∀ (p : Nat) {s : State}, s.params.trapStringReadsPoll = true →
    s.afterReads (65536 * p) a = State.refreshKeyboard^[p] s
  | 0, s, _ => by simp [State.afterReads]
  | p + 1, s, hp => by
    obtain ⟨j, hj, hk⟩ := exists_offset a s.params.kbsrAddr
    have h65536 : a + BitVec.ofNat 16 65536 = a := by simp
    rw [show 65536 * (p + 1) = 65536 + 65536 * p by omega, State.afterReads_add, h65536,
      State.afterReads_pass hp hj hk _ (Nat.le_refl _), if_neg (by omega), Function.iterate_succ_apply]
    exact State.afterReads_passes p (by simpa using hp)

/-- If no read of `p` passes is zero, none of each of them is. -/
theorem State.nonzeroPass_of_passes {s : State} {a : Word} {p : Nat} (hp : s.params.trapStringReadsPoll = true)
    (h : ∀ i, i < 65536 * p → s.stringRead a i ≠ 0) {q : Nat} (hq : q < p) :
    (State.refreshKeyboard^[q] s).NonzeroPass a := by
  intro i hi
  have := h (65536 * q + i) (by omega)
  rwa [State.stringRead_add, State.afterReads_passes q hp, add_passes] at this

/-- A pass that polls a quiet answer, and the next one, do not both stay without a zero read (R162: "a poll of KBSR_ADDR
with no input included"). -/
theorem State.not_nonzero_of_quiet {s : State} {a : Word} (hp : s.params.trapStringReadsPoll = true)
    (hq : s.answer = none ∨ s.answer = some 0) (h1 : s.NonzeroPass a) (h2 : s.refreshKeyboard.NonzeroPass a) : False := by
  obtain ⟨j, hj, hk⟩ := exists_offset a s.params.kbsrAddr
  obtain ⟨-, hkr, hdr, -⟩ := s.refreshKeyboard_eq
  have hK : s.refreshKeyboard.rawRead s.params.kbsrAddr ≠ 0 := by
    have := h1 j hj
    rwa [State.stringRead_pass hp hj hk hj, if_neg (by omega), hk] at this
  have hext : extIn s.params 0 = 0 := by
    unfold extIn
    cases s.params.inputByteExt <;> rfl
  rcases hq with hq | hq
  · rw [hq] at hkr
    exact hK hkr
  · rw [hq] at hkr hdr
    dsimp only at hkr hdr
    rw [hext] at hkr hdr
    obtain ⟨d, hd, hdk⟩ := exists_offset a s.params.kbdrAddr
    by_cases hdj : d < j
    · have hr : s.refreshKeyboard.params.trapStringReadsPoll = true := by simpa using hp
      have hk' : a + BitVec.ofNat 16 j = s.refreshKeyboard.params.kbsrAddr := by simpa using hk
      have := h2 d hd
      rw [State.stringRead_pass hr hj hk' hd, if_pos hdj, hdk] at this
      exact this hdr
    · have := h1 d hd
      rw [State.stringRead_pass hp hj hk hd, if_neg hdj, hdk] at this
      exact this hdr

theorem State.iterate_refresh (s : State) : ∀ n, (State.refreshKeyboard^[n] s).params = s.params ∧
    (State.refreshKeyboard^[n] s).input = Source.consume^[n] s.input
  | 0 => ⟨rfl, rfl⟩
  | n + 1 => by
    obtain ⟨h1, h2⟩ := State.iterate_refresh s n
    rw [Function.iterate_succ_apply', Function.iterate_succ_apply', State.params_refreshKeyboard, State.input_refreshKeyboard,
      h1, h2]
    exact ⟨rfl, rfl⟩

/-- Answers are taken off the list in order. -/
theorem Source.iterate_consume : ∀ (n : Nat) (x : Source), n ≤ x.listed.length →
    Source.consume^[n] x = { x with listed := x.listed.drop n }
  | 0, x, _ => by simp
  | n + 1, x, h => by
    obtain ⟨l, e, d⟩ := x
    cases l with
    | nil => simp at h
    | cons a rest =>
      rw [Function.iterate_succ_apply, (Source.of_listed rfl).2, Source.iterate_consume n _ (by simpa using h)]
      simp

/-- While a quiet answer is listed in place `i`, passes `i` and `i + 1` do not both stay without a zero read. -/
theorem State.not_nonzero_of_listed {s : State} {a : Word} {i : Nat} {q : Option Byte}
    (hp : s.params.trapStringReadsPoll = true) (hl : s.input.listed[i]? = some q) (hq : q = none ∨ q = some 0)
    (h1 : (State.refreshKeyboard^[i] s).NonzeroPass a) (h2 : (State.refreshKeyboard^[i + 1] s).NonzeroPass a) : False := by
  obtain ⟨hlt, hget⟩ := List.getElem?_eq_some_iff.mp hl
  obtain ⟨hpar, hin⟩ := s.iterate_refresh i
  have hans : (State.refreshKeyboard^[i] s).answer = q := by
    unfold State.answer
    rw [hin, Source.iterate_consume i _ (by omega)]
    refine (Source.of_listed (rest := s.input.listed.drop (i + 1)) ?_).1
    rw [← hget]
    exact List.drop_eq_getElem_cons hlt
  rw [Function.iterate_succ_apply'] at h2
  exact State.not_nonzero_of_quiet (by rw [hpar]; exact hp) (by rw [hans]; exact hq) h1 h2

/-- A machine whose string reads can never be zero: polls find non-zero bytes only, and nothing in memory is zero. -/
structure State.Loud (s : State) : Prop where
  polls : s.params.trapStringReadsPoll = true
  listed : s.input.listed = []
  endless : s.input.endless = true
  memory : ∀ a, s.rawRead a ≠ 0
  ready : s.params.kbdrAddr = s.params.kbsrAddr ∨ s.params.kbsrReady ≠ 0

theorem extIn_ne_zero (p : Params) {b : Byte} (h : b ≠ 0) : extIn p b ≠ 0 := by
  intro h0
  apply h
  have hlow : (extIn p b).setWidth 8 = b := by
    unfold extIn
    cases p.inputByteExt
    · simp
    · apply BitVec.eq_of_getLsbD_eq
      intro i hi
      rw [BitVec.getLsbD_setWidth, BitVec.getLsbD_signExtend]
      simp [hi, show i < 16 by omega]
  rw [← hlow, h0]
  rfl

/-- A poll that finds a non-zero byte, in a memory that it and its cells apart has no zero. -/
theorem State.loud_refresh {s : State} {n : Nat} (hp : s.params.trapStringReadsPoll = true)
    (ha : s.answer = some (loudByte n)) (hc : s.input.consume = ⟨[], true, n + 1⟩)
    (hr : s.params.kbdrAddr = s.params.kbsrAddr ∨ s.params.kbsrReady ≠ 0)
    (hm : ∀ a, a ≠ s.params.kbsrAddr → a ≠ s.params.kbdrAddr → s.rawRead a ≠ 0) : s.refreshKeyboard.Loud := by
  obtain ⟨-, hk, hd, ho⟩ := s.refreshKeyboard_eq
  rw [ha] at hk hd
  dsimp only at hk hd
  have hb := extIn_ne_zero s.params (loudByte_ne_zero n)
  refine ⟨by simpa using hp, by simp [hc], by simp [hc], fun a => ?_, by simpa using hr⟩
  by_cases h1 : a = s.params.kbdrAddr
  · rw [h1, hd]
    exact hb
  · by_cases h2 : a = s.params.kbsrAddr
    · rw [h2, hk]
      split
      · exact hb
      · exact hr.resolve_left ‹_›
    · rw [ho a h2 h1]
      exact hm a h2 h1

/-- A string read of a loud machine is not zero and leaves it loud. -/
theorem State.Loud.strRead {s : State} (h : s.Loud) (a : Word) : (s.strRead a).1 ≠ 0 ∧ (s.strRead a).2.Loud := by
  by_cases ha : a = s.params.kbsrAddr
  · obtain ⟨n, h1, h2⟩ := Source.of_endless h.listed (.inl h.endless)
    have hl := State.loud_refresh h.polls h1 h2 h.ready fun a _ _ => h.memory a
    rw [State.strRead_poll a h.polls, ha, State.memRead_fst, State.memRead_snd, State.afterRead_kbsr]
    exact ⟨hl.memory _, hl⟩
  · rw [State.strRead_plain (.inr ha)]
    exact ⟨h.memory a, h⟩

theorem State.Loud.stringRead : ∀ (n : Nat) {s : State} (_ : s.Loud) (a : Word), s.stringRead a n ≠ 0
  | 0, s, h, a => by
    rw [State.stringRead_zero]
    exact (h.strRead a).1
  | n + 1, s, h, a => by
    rw [State.stringRead_succ]
    exact State.Loud.stringRead n (h.strRead a).2 (a + 1)

/-- After passes without a zero read: the machine is settled and no read ever returns zero, or a quiet answer is listed
last and the next passes read a zero. -/
theorem State.passes_settle {s : State} {a : Word} (h : ∀ i, i < 65536 * s.passes → s.stringRead a i ≠ 0) :
    ((s.afterReads (65536 * s.passes) a).settled = true ∧ ∀ n, s.stringRead a n ≠ 0) ∨
    ((s.afterReads (65536 * s.passes) a).settled = false ∧
      ¬ ∀ i, i < 65536 * (s.afterReads (65536 * s.passes) a).passes →
        (s.afterReads (65536 * s.passes) a).stringRead a i ≠ 0) := by
  cases hp : s.params.trapStringReadsPoll with
  | false =>
    left
    rw [State.afterReads_of_raw _ a hp]
    refine ⟨by simp [State.settled, hp], fun n => ?_⟩
    obtain ⟨i, hi, he⟩ := exists_offset a (a + BitVec.ofNat 16 n)
    have := h i (by simp [State.passes, hp]; omega)
    rw [State.stringRead_of_raw a _ hp] at this ⊢
    rwa [he] at this
  | true =>
    have hpass : s.passes = s.input.listed.length + 1 := by simp [State.passes, hp]
    rw [hpass] at h ⊢
    rw [State.afterReads_passes _ hp]
    obtain ⟨hpar, hin⟩ := s.iterate_refresh s.input.listed.length
    have hlast := State.nonzeroPass_of_passes hp h (Nat.lt_succ_self s.input.listed.length)
    rw [Function.iterate_succ_apply']
    have htail : ∀ n, s.stringRead a (n + 65536 * (s.input.listed.length + 1)) =
        (State.refreshKeyboard (State.refreshKeyboard^[s.input.listed.length] s)).stringRead a n := by
      intro n
      rw [Nat.add_comm, State.stringRead_add, State.afterReads_passes _ hp, add_passes, Function.iterate_succ_apply']
    generalize State.refreshKeyboard^[s.input.listed.length] s = u at hpar hin hlast htail ⊢
    rw [Source.iterate_consume _ _ (Nat.le_refl _), List.drop_length] at hin
    have hlisted : u.input.listed = [] := by rw [hin]
    have hup : u.params.trapStringReadsPoll = true := by rw [hpar]; exact hp
    have hrp : u.refreshKeyboard.params.trapStringReadsPoll = true := by simpa using hup
    by_cases he : u.input.endless = true ∨ Config.inputBurst u.input.draws = none
    · left
      obtain ⟨n, hans, hcons⟩ := Source.of_endless hlisted he
      refine ⟨by simp [State.settled, hcons], fun i => ?_⟩
      by_cases hi : i < 65536 * (s.input.listed.length + 1)
      · exact h i hi
      · obtain ⟨m, rfl⟩ : ∃ m, i = m + 65536 * (s.input.listed.length + 1) :=
          ⟨i - 65536 * (s.input.listed.length + 1), by omega⟩
        rw [htail]
        refine State.Loud.stringRead m (State.loud_refresh hup hans hcons ?_ ?_) a
        · obtain ⟨j, hj, hk⟩ := exists_offset a u.params.kbsrAddr
          have := hlast j hj
          rw [State.stringRead_pass hup hj hk hj, if_neg (by omega), hk, u.refreshKeyboard_eq.2.1,
            show u.answer = some (loudByte n) from hans] at this
          dsimp only at this
          by_cases hd : u.params.kbdrAddr = u.params.kbsrAddr
          · exact .inl hd
          · exact .inr (by simpa [hd] using this)
        · intro x hx1 hx2
          obtain ⟨j, hj, hk⟩ := exists_offset a u.params.kbsrAddr
          obtain ⟨i, hi, hix⟩ := exists_offset a x
          have := hlast i hi
          rw [State.stringRead_pass hup hj hk hi, hix, u.refreshKeyboard_eq.2.2.2 x hx1 hx2] at this
          simpa using this
    · right
      have hend : u.input.endless = false := by simpa using fun h' => he (.inl h')
      obtain ⟨b, hb⟩ := Option.ne_none_iff_exists'.mp fun h' => he (.inr h')
      obtain ⟨hans, hcons⟩ := Source.of_burst hlisted hend hb
      have hquiet : (if b.zeroLast then some 0 else none : Option Byte) = none ∨
          (if b.zeroLast then some 0 else none : Option Byte) = some 0 := by cases b.zeroLast <;> simp
      refine ⟨by simp [State.settled, hcons, hup], fun h2 => ?_⟩
      have hpass2 : u.refreshKeyboard.passes = b.list.tail.length + 1 := by simp [State.passes, hup, hcons]
      rw [hpass2] at h2
      unfold Burst.list at hans hcons h2
      cases has : b.answers with
      | nil =>
        rw [has] at hans h2
        have hans : u.answer = if b.zeroLast then some 0 else none := Option.some.inj hans
        have := State.nonzeroPass_of_passes hrp h2 (q := 0) (by omega)
        exact State.not_nonzero_of_quiet hup (by rw [hans]; exact hquiet) hlast this
      | cons x rest =>
        rw [has] at hcons h2
        simp only [List.cons_append, List.tail_cons, List.length_append, List.length_cons, List.length_nil] at hcons h2
        refine State.not_nonzero_of_listed (i := rest.length) hrp ?_ hquiet
          (State.nonzeroPass_of_passes hrp h2 (by omega)) (State.nonzeroPass_of_passes hrp h2 (by omega))
        rw [State.input_refreshKeyboard, hcons]
        simp

/-! ### The routines -/

/-- Everything a string routine does (R155, R157, R162): it ends at the first zero read, with the bytes of the words before
it written; or no read ever returns zero and it is DIVERGED. -/
theorem State.stringTrap_cases (s : State) (k : StringKind) :
    (∃ n, (∀ i, i < n → stringWord s i ≠ 0) ∧ stringWord s n = 0 ∧
      s.stringTrap k = (s.afterReads (n + 1) (s.reg .r0)).outWrites (stringRun k s (s.reg .r0) n)) ∨
    ((∀ i, stringWord s i ≠ 0) ∧ s.stringTrap k = ((s.afterReads (65536 * s.passes) (s.reg .r0)).outWrites
      (stringRun k s (s.reg .r0) (65536 * s.passes))).setRun (.diverged ⟨k, s.reg .r0⟩)) := by
  unfold State.stringTrap stringWord
  generalize s.reg .r0 = a
  rcases s.stringPasses_cases k a with ⟨n, hz, hend, he⟩ | ⟨hz, he⟩
  · left
    exact ⟨n, hz, hend, by rw [he]⟩
  · rw [he]
    dsimp only
    rcases State.passes_settle hz with ⟨hset, hall⟩ | ⟨hset, hnot⟩
    · right
      refine ⟨hall, ?_⟩
      rw [if_pos]
      exact hset
    · left
      have hset' : ((s.afterReads (65536 * s.passes) a).outWrites (stringRun k s a (65536 * s.passes))).settled = false := hset
      simp only [hset', Bool.false_eq_true, if_false]
      rcases ((s.afterReads (65536 * s.passes) a).outWrites (stringRun k s a (65536 * s.passes))).stringPasses_cases k a with
        ⟨n, hz2, hend2, he2⟩ | ⟨hz2, -⟩
      · simp only [State.stringRead_outWrites] at hz2 hend2
        have hshift : ∀ i, s.stringRead a (65536 * s.passes + i) = (s.afterReads (65536 * s.passes) a).stringRead a i := by
          intro i
          rw [State.stringRead_add, add_passes]
        refine ⟨65536 * s.passes + n, fun i hi => ?_, by rw [hshift]; exact hend2, ?_⟩
        · by_cases h : i < 65536 * s.passes
          · exact hz i h
          · obtain ⟨m, rfl⟩ : ∃ m, i = 65536 * s.passes + m := ⟨i - 65536 * s.passes, by omega⟩
            rw [hshift]
            exact hz2 m (by omega)
        · rw [he2]
          dsimp only
          rw [State.afterReads_outWrites, stringRun_outWrites, State.outWrites_outWrites, stringRun_add,
            show 65536 * s.passes + n + 1 = 65536 * s.passes + (n + 1) by omega, State.afterReads_add (65536 * s.passes),
            add_passes]
      · exfalso
        apply hnot
        intro i hi
        have := hz2 i hi
        rwa [State.stringRead_outWrites] at this

/-- Whatever the reads, a string routine changes only the keyboard cells, the input, the output, which it appends to, and
the run state. -/
theorem State.stringTrap_frame (s : State) (k : StringKind) :
    ∃ bs, s.stringTrap k = { s with
      mem := (s.stringTrap k).mem, input := (s.stringTrap k).input, out := s.out ++ bs, run := (s.stringTrap k).run } ∧
    (∀ b, b ≠ s.params.kbsrAddr → b ≠ s.params.kbdrAddr → (s.stringTrap k).rawRead b = s.rawRead b) ∧
    (s.mem.wf → (s.stringTrap k).mem.wf) := by
  have hframe : ∀ (n : Nat) (bs : List Byte) (r : Run), ((s.afterReads n (s.reg .r0)).outWrites bs).setRun r =
      { s with
        mem := (s.afterReads n (s.reg .r0)).mem, input := (s.afterReads n (s.reg .r0)).input, out := s.out ++ bs, run := r } := by
    intro n bs r
    simp [State.outWrites, State.setRun]
  rcases s.stringTrap_cases k with ⟨n, -, -, he⟩ | ⟨-, he⟩
  · obtain ⟨-, h2, h3⟩ := State.afterReads_eq (n + 1) (s.reg .r0) s
    refine ⟨stringRun k s (s.reg .r0) n, ?_, by rw [he]; exact h2, by rw [he]; exact h3⟩
    have := hframe (n + 1) (stringRun k s (s.reg .r0) n) s.run
    rw [he]
    refine Eq.trans ?_ (this.trans ?_)
    · simp [State.outWrites, State.setRun]
    · simp [State.outWrites]
  · obtain ⟨-, h2, h3⟩ := State.afterReads_eq (65536 * s.passes) (s.reg .r0) s
    refine ⟨stringRun k s (s.reg .r0) (65536 * s.passes), ?_, by rw [he]; exact h2, by rw [he]; exact h3⟩
    rw [he, hframe]

end Sys2Proof.Machine
end

