-- ==== Sys2Proof/Laws/Step.lean ====
section
/-! SUPPORT. What a step is in each run state (R27, R80, R162), and that every instruction answers a next state. -/

namespace Sys2Proof.Machine

theorem step_running {s : State} (h : s.run = .running) : step s = exec (decode s.fetch.1) s.fetch.2 := by
  unfold step cycle
  rw [h]

theorem step_diverged {s : State} {l : StringLoop} (h : s.run = .diverged l) : step s = .next (s.divergedStep l) := by
  unfold step cycle
  rw [h]

theorem step_halted {s : State} (h : s.run = .halted) : step s = .next s := by
  unfold step cycle
  rw [h]

theorem step_inputClosed {s : State} (h : s.run = .inputClosed) : step s = .next s := by
  unfold step cycle
  rw [h]

/-- One step more of the host's run. -/
theorem core_run_succ (n : Nat) (s : State) :
    core.run (n + 1) s =
      match step s with
      | .next t => core.run n t
      | .fault r => .fault r
      | .refused r => .refused r := by
  have h : core.step s = step s := rfl
  cases hs : step s <;> simp only [Host.Core.run, h, hs]

/-- Two next states that are the same outcome are the same state. -/
theorem next_inj {s t : State} (h : (Host.Outcome.next s : Host.Outcome State Fault Refusal) = .next t) : s = t := by
  cases h
  rfl

/-- Everything an instruction may do to a state, for the invariants that need no more. Registers, COND and PC apart, it
appends to the output, and memory keeps its form. -/
theorem exec_keeps {i : Instr} {s t : State} (h : exec i s = .next t) :
    t.params = s.params ∧ s.out <+: t.out ∧ (s.mem.wf → t.mem.wf) := by
  have hload : ∀ (u : State) (dr : Reg) (ea : Word), (u.loadFrom dr ea).params = u.params ∧
      (u.loadFrom dr ea).out = u.out ∧ (u.mem.wf → (u.loadFrom dr ea).mem.wf) := by
    intro u dr ea
    exact ⟨by simp [State.loadFrom, State.writeResult, State.setFlags],
      by simp [State.loadFrom, State.writeResult, State.setFlags], fun hw => State.wf_afterRead ea hw⟩
  have hread : ∀ (u : State) (e : Byte → List Byte), (u.readChar e).params = u.params ∧ u.out <+: (u.readChar e).out ∧
      (u.readChar e).mem = u.mem := by
    intro u e
    unfold State.readChar
    split
    · simp [State.writeResult, State.setFlags]
    · simp [State.inputClosed]
  have hstring : ∀ (u : State) (k : StringKind), (u.stringTrap k).params = u.params ∧ u.out <+: (u.stringTrap k).out ∧
      (u.mem.wf → (u.stringTrap k).mem.wf) := by
    intro u k
    obtain ⟨bs, h1, -, h3⟩ := u.stringTrap_frame k
    exact ⟨by rw [h1], by rw [h1]; exact ⟨bs, rfl⟩, h3⟩
  cases i
  case ld dr off => have h := next_inj h; subst h; exact ⟨(hload _ _ _).1, by rw [(hload _ _ _).2.1], (hload _ _ _).2.2⟩
  case ldr dr b off => have h := next_inj h; subst h; exact ⟨(hload _ _ _).1, by rw [(hload _ _ _).2.1], (hload _ _ _).2.2⟩
  case ldi dr off =>
    have h := next_inj h
    subst h
    refine ⟨(hload _ _ _).1.trans ?_, ?_, fun hw => (hload _ _ _).2.2 (State.wf_afterRead _ hw)⟩
    · simp [State.eaIndirect]
    · rw [(hload _ _ _).2.1]; simp [State.eaIndirect]
  case st sr off => have h := next_inj h; subst h; exact ⟨rfl, List.prefix_refl _, Memory.wf_setWord _ _⟩
  case str sr b off => have h := next_inj h; subst h; exact ⟨rfl, List.prefix_refl _, Memory.wf_setWord _ _⟩
  case sti sr off =>
    have h := next_inj h
    subst h
    refine ⟨?_, ?_, fun hw => Memory.wf_setWord _ _ (State.wf_afterRead _ hw)⟩
    · simp [State.eaIndirect]
    · simp [State.eaIndirect]
  case trapGetc =>
    have h := next_inj h
    subst h
    obtain ⟨h1, h2, h3⟩ := hread s.enterTrap fun _ => []
    exact ⟨h1, h2, fun hw => by rw [h3]; exact hw⟩
  case trapIn =>
    have h := next_inj h
    subst h
    obtain ⟨h1, h2, h3⟩ := hread (s.enterTrap.outWrites s.params.inPrompt) fun b => [b]
    exact ⟨h1, List.IsPrefix.trans ⟨_, rfl⟩ h2, fun hw => by rw [h3]; exact hw⟩
  case trapPuts => have h := next_inj h; subst h; exact hstring s.enterTrap .puts
  case trapPutsp => have h := next_inj h; subst h; exact hstring s.enterTrap .putsp
  case trapOut => have h := next_inj h; subst h; exact ⟨rfl, ⟨_, rfl⟩, id⟩
  case trapHalt => have h := next_inj h; subst h; exact ⟨rfl, ⟨_, rfl⟩, id⟩
  case br n z p off => have h := next_inj h; subst h; split <;> exact ⟨rfl, List.prefix_refl _, id⟩
  case jsrr b => have h := next_inj h; subst h; split <;> exact ⟨rfl, List.prefix_refl _, id⟩
  all_goals
    have h := next_inj h
    subst h
    exact ⟨rfl, List.prefix_refl _, id⟩

end Sys2Proof.Machine
end

