-- ==== Sys2Proof/Laws/Session.lean ====
section
/-! SUPPORT. What `load` does with a stream (R191, R193). -/

namespace Sys2Proof.Machine

/-- A big-endian word as a number (R191). -/
theorem toNat_bigEndian (hi lo : Byte) : (hi ++ lo : BitVec 16).toNat = 256 * hi.toNat + lo.toNat := by
  have := lo.isLt
  refine (BitVec.toNat_append hi lo).trans ?_
  rw [← Nat.shiftLeft_add_eq_or_of_lt this, Nat.shiftLeft_eq]
  omega

theorem wordsOf_length : ∀ l : List Byte, (wordsOf l).length = l.length / 2
  | [] => rfl
  | [_] => by simp [wordsOf]
  | _ :: _ :: r => by
    simp only [wordsOf, List.length_cons, wordsOf_length r]
    omega

theorem wordsOf_getElem : ∀ (l : List Byte) (i : Nat) (h : i < (wordsOf l).length),
    (wordsOf l)[i] = (l.getD (2 * i) 0 ++ l.getD (2 * i + 1) 0 : BitVec 16)
  | [], _, h => by simp [wordsOf] at h
  | [_], _, h => by simp [wordsOf] at h
  | _ :: _ :: _, 0, _ => rfl
  | _ :: _ :: r, i + 1, h => by
    have := wordsOf_getElem r i (by simpa [wordsOf] using h)
    simp [wordsOf, this, Nat.mul_add]

/-- Swapping twice gives the word back (R192). -/
theorem swap_swap (w : Word) : swap (swap w) = w := by
  apply BitVec.eq_of_getLsbD_eq
  intro i hi
  simp only [swap, BitVec.getLsbD_append, BitVec.getLsbD_extractLsb']
  by_cases h : i < 8
  · simp [h]
  · have h1 : i - 8 < 8 := by omega
    have h2 : 8 + (i - 8) = i := by omega
    simp [h, h1, h2]

/-- A load keeps the memory's canonical form, whatever the stream. -/
theorem wf_load (stream : ImageStream) {s : State} (h : s.mem.wf) : (load stream s).2.mem.wf := by
  unfold load
  split
  · exact h
  · dsimp only
    split <;> exact Memory.wf_setWords _ _ h

end Sys2Proof.Machine
end

