-- ==== Sys2Proof/Tests/Slice0.lean ====
section
/-! SUPPORT. Tests: decoded words written out from the formats of R61, the vectors of spec/95_test_vectors.md (named in each
comment), and a witness for every statement that has hypotheses. -/

namespace Sys2Proof.Tests

open Sys2Proof.Machine

/-! ### WellFormed: one ill-formed term for each check -/

theorem test_wellFormed_refuses_jmp_r7 : (Instr.jmp .r7).wellFormed = false := by decide
theorem test_wellFormed_refuses_known_vector :
    (Instr.trapUnknown 0x20).wellFormed = false ∧ (Instr.trapUnknown 0x25).wellFormed = false := by decide
theorem test_wellFormed_accepts : WellFormed (.jmp .r6) ∧ WellFormed (.trapUnknown 0x1F) ∧ WellFormed (.trapUnknown 0x26) := by
  decide

/-! ### Decode: one word per constructor, bit by bit from the layouts of R61, numbers of R66 and R70 -/

theorem test_decode_addReg : decode 0b0001_011_001_0_00_010 = .addReg .r3 .r1 .r2 := by decide
theorem test_decode_addImm : decode 0b0001_001_001_1_10001 = .addImm .r1 .r1 0b10001 := by decide
theorem test_decode_andReg : decode 0b0101_011_001_0_00_010 = .andReg .r3 .r1 .r2 := by decide
theorem test_decode_andImm : decode 0b0101_010_001_1_01111 = .andImm .r2 .r1 0b01111 := by decide
theorem test_decode_not : decode 0b1001_001_000_111111 = .not .r1 .r0 := by decide
theorem test_decode_br : decode 0b0000_0_1_0_000000010 = .br false true false 2 := by decide
theorem test_decode_br_n : decode 0b0000_1_0_0_111111111 = .br true false false 0b111111111 := by decide
theorem test_decode_jmp : decode 0b1100_000_011_000000 = .jmp .r3 := by decide
theorem test_decode_ret : decode 0b1100_000_111_000000 = .ret := by decide
theorem test_decode_jsr : decode 0b0100_1_10000000000 = .jsr 0b10000000000 := by decide
theorem test_decode_jsrr : decode 0b0100_0_00_010_000000 = .jsrr .r2 := by decide
theorem test_decode_ld : decode 0b0010_001_000000100 = .ld .r1 4 := by decide
theorem test_decode_ldi : decode 0b1010_000_000000010 = .ldi .r0 2 := by decide
theorem test_decode_ldr : decode 0b0110_011_010_111111 = .ldr .r3 .r2 0b111111 := by decide
theorem test_decode_lea : decode 0b1110_000_000001111 = .lea .r0 15 := by decide
theorem test_decode_st : decode 0b0011_011_111111111 = .st .r3 0b111111111 := by decide
theorem test_decode_sti : decode 0b1011_001_000000001 = .sti .r1 1 := by decide
theorem test_decode_str : decode 0b0111_101_100_111111 = .str .r5 .r4 0b111111 := by decide
theorem test_decode_rti : decode 0b1000_000000000000 = .rti := by decide
theorem test_decode_res : decode 0b1101_111111111111 = .res := by decide
theorem test_decode_trapGetc : decode 0b1111_0000_00100000 = .trapGetc := by decide
theorem test_decode_trapOut : decode 0b1111_0000_00100001 = .trapOut := by decide
theorem test_decode_trapPuts : decode 0b1111_0000_00100010 = .trapPuts := by decide
theorem test_decode_trapIn : decode 0b1111_0000_00100011 = .trapIn := by decide
theorem test_decode_trapPutsp : decode 0b1111_0000_00100100 = .trapPutsp := by decide
theorem test_decode_trapHalt : decode 0b1111_0000_00100101 = .trapHalt := by decide
theorem test_decode_trapUnknown : decode 0b1111_0000_00110000 = .trapUnknown 0x30 := by decide

/-- Ignored bits (R67): T6, T15, T23, T53, T71. -/
theorem test_decode_ignored : decode 0x165A = decode 0x1642 ∧ decode 0x9200 = decode 0x923F ∧ decode 0xCEFF = .jmp .r3 ∧
    decode 0x8FFF = .rti ∧ decode 0xFF25 = .trapHalt := by decide

theorem test_decodeBytes : decodeBytes [0x12, 0x6F, 0xAA] = .ok (.addImm .r1 .r1 15, [0xAA]) ∧
    decodeBytes [0x12] = .error .truncated := by decide

theorem test_decodeTableWord : decodeTableWord 16 0xF025 = some .trapHalt ∧ decodeTableWord 24 0 = none := by decide

/-! ### Encode: the words section 3 of 95_test_vectors gives -/

theorem test_encode_operate : encode (.addImm .r1 .r1 0b11111) = 0x127F ∧ encode (.andImm .r0 .r0 0) = 0x5020 ∧
    encode (.not .r1 .r0) = 0x923F := by decide
theorem test_encode_control : encode (.br false false true 0b111111101) = 0x03FD ∧ encode .ret = 0xC1C0 ∧
    encode (.jsr 3) = 0x4803 ∧ encode (.jsrr .r2) = 0x4080 := by decide
theorem test_encode_memory : encode (.ld .r1 7) = 0x2207 ∧ encode (.str .r3 .r2 0) = 0x7680 ∧ encode (.ldi .r0 4) = 0xA004 ∧
    encode .trapPuts = 0xF022 := by decide

/-! ### One step from the start state of 95_test_vectors, "Conventions" -/

/-- RUNNING at `pc` with the word there, the rest as at reset. -/
def stateAt (pc w : Word) : State := (State.reset.setPc pc).placeAtPc w

/-- The state one step later. -/
def after (s : State) : State :=
  match step s with
  | .next t => t
  | .fault _ => s
  | .refused _ => s

/-- With the answers of the coming input calls. -/
def withInput (s : State) (answers : List (Option Byte)) : State := { s with input := ⟨answers, false, 0⟩ }

def withParams (s : State) (p : Params) : State := { s with params := p }

/-- T1, W3. -/
theorem test_add_wraps :
    let t := after (((stateAt 0x3000 0x1642).setReg .r1 0xFFFF).setReg .r2 0x0001)
    t.reg .r3 = 0x0000 ∧ t.cond = 2 ∧ t.pc = 0x3001 := by decide

/-- T2 and T3. -/
theorem test_add_immediate :
    (after ((stateAt 0x3000 0x1261).setReg .r1 0x7FFF)).reg .r1 = 0x8000 ∧ (after (stateAt 0x3000 0x1270)).reg .r1 = 0xFFF0 ∧
    (after (stateAt 0x3000 0x1270)).cond = 4 := by decide

/-- T5: both sources are read before the write. -/
theorem test_add_doubles : (after ((stateAt 0x3000 0x1241).setReg .r1 0x1234)).reg .r1 = 0x2468 := by decide

/-- T7. -/
theorem test_and_register :
    (after (((stateAt 0x3000 0x5642).setReg .r1 0xF0F0).setReg .r2 0x0FF0)).reg .r3 = 0x00F0 := by decide

/-- T8 and T9. -/
theorem test_and_immediate : (after ((stateAt 0x3000 0x547F).setReg .r1 0x8001)).reg .r2 = 0x8001 ∧
    (after ((stateAt 0x3000 0x546F).setReg .r1 0xFFFF)).reg .r2 = 0x000F := by decide

/-- T14. -/
theorem test_not : (after ((stateAt 0x3000 0x903F).setReg .r0 0x8000)).reg .r0 = 0x7FFF ∧
    (after ((stateAt 0x3000 0x903F).setReg .r0 0x8000)).cond = 1 := by decide

/-- T16, T17, T20, T21. -/
theorem test_br : (after (stateAt 0x3000 0x0402)).pc = 0x3003 ∧ (after ((stateAt 0x3000 0x0402).setCond .pos)).pc = 0x3001 ∧
    (after (stateAt 0xFFFF 0x0E01)).pc = 0x0001 ∧ (after (stateAt 0x0005 0x0F00)).pc = 0xFF06 := by decide

/-- T22 and T24. -/
theorem test_jmp_ret : (after ((stateAt 0x3000 0xC0C0).setReg .r3 0x1234)).pc = 0x1234 ∧
    (after ((stateAt 0x3000 0xC1C0).setReg .r7 0x3005)).pc = 0x3005 := by decide

/-- T26 and T27. -/
theorem test_jsr : (after (stateAt 0x3000 0x4C00)).pc = 0x2C01 ∧ (after (stateAt 0x3000 0x4C00)).reg .r7 = 0x3001 ∧
    (after (stateAt 0x3000 0x4BFF)).pc = 0x3400 := by decide

/-- T28 and T29. -/
theorem test_jsrr : (after ((stateAt 0x3000 0x4080).setReg .r2 0x4000)).pc = 0x4000 ∧
    (after ((stateAt 0x3000 0x41C0).setReg .r7 0x5000)).pc = 0x3001 := by decide

/-- T30: JSRR_READ_BASE_FIRST = true. -/
theorem test_jsrr_base_first :
    let t := after (withParams ((stateAt 0x3000 0x41C0).setReg .r7 0x5000) { Params.default with jsrrReadBaseFirst := true })
    t.pc = 0x5000 ∧ t.reg .r7 = 0x3001 := by decide

/-- T31 and T33. -/
theorem test_ld : (after ((stateAt 0x3000 0x2204).memWrite 0x3005 0x8001)).reg .r1 = 0x8001 ∧
    (after ((stateAt 0xFFFF 0x2005).memWrite 0x0005 0x0123)).reg .r0 = 0x0123 := by decide

/-- T34. -/
theorem test_ldi :
    (after (((stateAt 0x3000 0xA002).memWrite 0x3003 0x4000).memWrite 0x4000 0x1234)).reg .r0 = 0x1234 := by decide

/-- T35: the second read polls. -/
theorem test_ldi_polls :
    let t := after (withInput ((stateAt 0x3000 0xA002).memWrite 0x3003 0xFE00) [none])
    t.reg .r0 = 0 ∧ t.cond = 2 ∧ t.input.listed = [] := by decide

/-- T38. -/
theorem test_ldr_wraps :
    (after (((stateAt 0x3000 0x6441).setReg .r1 0xFFFF).memWrite 0x0000 0x7FFF)).reg .r2 = 0x7FFF := by decide

/-- T39: a poll that finds a byte. -/
theorem test_ldr_polls :
    let t := after (withInput ((stateAt 0x3000 0x6040).setReg .r1 0xFE00) [some 0x61])
    t.reg .r0 = 0x8000 ∧ t.cond = 4 ∧ t.rawRead 0xFE00 = 0x8000 ∧ t.rawRead 0xFE02 = 0x0061 := by decide

/-- T42 and T43. -/
theorem test_lea : (after (stateAt 0x0000 0xE1FF)).cond = 2 ∧ (after (stateAt 0x8000 0xE000)).reg .r0 = 0x8001 := by decide

/-- T44: LEA of the status cell does not poll. -/
theorem test_lea_no_poll : (after (withInput (stateAt 0xFDFF 0xE000) [some 0x41])).input.listed = [some 0x41] := by decide

/-- T45 and T46. -/
theorem test_st : (after ((stateAt 0x3000 0x37FF).setReg .r3 0xBEEF)).rawRead 0x3000 = 0xBEEF ∧
    (after ((stateAt 0x0000 0x3100).setReg .r0 0xAAAA)).rawRead 0xFF01 = 0xAAAA := by decide

/-- T47. -/
theorem test_sti :
    (after (((stateAt 0x3000 0xB201).setReg .r1 0x0042).memWrite 0x3002 0x5000)).rawRead 0x5000 = 0x0042 := by decide

/-- T48: the pointer read polls. -/
theorem test_sti_polls :
    let t := after (withInput ((stateAt 0xFDFF 0xB200).setReg .r1 0x0777) [none])
    t.rawRead 0x0000 = 0x0777 ∧ t.rawRead 0xFE00 = 0 ∧ t.pc = 0xFE00 := by decide

/-- T49 and T51. -/
theorem test_str : (after (((stateAt 0x3000 0x7B3F).setReg .r4 0).setReg .r5 0x1234)).rawRead 0xFFFF = 0x1234 ∧
    (after ((stateAt 0x3000 0x7240).setReg .r1 0xFE00)).rawRead 0xFE00 = 0xFE00 := by decide

/-- T53 and T55. -/
theorem test_reserved : (after (stateAt 0x3000 0x8FFF)).run = .halted ∧ (after (stateAt 0x3000 0xDFFF)).run = .halted ∧
    (after (stateAt 0x3000 0xDFFF)).pc = 0x3001 := by decide

/-- T56. -/
theorem test_getc :
    let t := after (withInput (stateAt 0x3000 0xF020) [some 0x41])
    t.reg .r0 = 0x0041 ∧ t.cond = 1 ∧ t.reg .r7 = 0x3001 ∧ t.out = [] := by decide

/-- T59: INPUT_BYTE_EXT = sign. -/
theorem test_getc_sign :
    let t := after (withParams (withInput (stateAt 0x3000 0xF020) [some 0xC3]) { Params.default with inputByteExt := .sign })
    t.reg .r0 = 0xFFC3 ∧ t.cond = 4 := by decide

/-- T61. -/
theorem test_out : (after ((stateAt 0x3000 0xF021).setReg .r0 0x1241)).out = [0x41] := by decide

/-- T64. -/
theorem test_puts_low_bytes :
    (after ((((stateAt 0x3000 0xF022).setReg .r0 0x4000).memWrite 0x4000 0x0100).memWrite 0x4001 0x0041)).out = [0x00, 0x41] := by
  decide

/-- T65: the pointer wraps. -/
theorem test_puts_wraps :
    (after ((((stateAt 0x3000 0xF022).setReg .r0 0xFFFF).memWrite 0xFFFF 0x0041).memWrite 0x0000 0x0042)).out = [0x41, 0x42] := by
  decide

/-- R160 with TRAP_STRING_READS_POLL = true, by hand from R43 and R155: the read of 0xFE00 gives 0x8000, the next word is 0. -/
theorem test_puts_polls :
    let t := after (withParams (withInput ((stateAt 0x3000 0xF022).setReg .r0 0xFE00) [some 0x41])
      { Params.default with trapStringReadsPoll := true })
    t.out = [0x00] ∧ t.rawRead 0xFE02 = 0x0041 ∧ t.run = .running ∧ t.input.listed = [] := by decide

/-- T66 with IN_PROMPT = ">". -/
theorem test_in :
    let t := after (withParams (withInput (stateAt 0x3000 0xF023) [some 0x78]) { Params.default with inPrompt := [0x3E] })
    t.out = [0x3E, 0x78] ∧ t.reg .r0 = 0x0078 := by decide

/-- T60 and T67: closed input. -/
theorem test_input_closed :
    (after (withInput (stateAt 0x3000 0xF020) [none])).run = .inputClosed ∧
    (after (withParams (withInput (stateAt 0x3000 0xF023) [none]) { Params.default with inPrompt := [0x3E] })).out = [0x3E] := by
  decide

/-- T68 and T69. -/
theorem test_putsp :
    (after ((((stateAt 0x3000 0xF024).setReg .r0 0x4000).memWrite 0x4000 0x4948).memWrite 0x4001 0x0021)).out = [0x48, 0x49, 0x21] ∧
    (after ((((stateAt 0x3000 0xF024).setReg .r0 0x4000).memWrite 0x4000 0x4100).memWrite 0x4001 0x0041)).out = [0x41, 0x41] := by
  decide

/-- T70. -/
theorem test_halt :
    let t := after ((stateAt 0x3000 0xF025).setCond .neg)
    t.run = .halted ∧ t.reg .r7 = 0x3001 ∧ t.cond = 4 ∧ t.out = [] := by decide

/-- T72. -/
theorem test_unknown_vector :
    let t := after ((stateAt 0x3000 0xF030).setReg .r7 0x1111)
    t.reg .r7 = 0x3001 ∧ t.pc = 0x3001 ∧ t.run = .running := by decide

/-- T75, T76, T77: the fetch wraps, and polls at the status cell. -/
theorem test_fetch : (after (stateAt 0xFFFF 0)).pc = 0x0000 ∧ (after (withInput (stateAt 0xFE00 0x1234) [none])).pc = 0xFE01 ∧
    (after (withInput (stateAt 0xFE00 0) [some 0x41])).run = .halted := by decide

/-- R7's parameters at other values: the status cell at 0x4000 with another ready word, and another start address. -/
theorem test_parameters :
    (after (withParams (withInput ((stateAt 0x3000 0x6040).setReg .r1 0x4000) [some 0x61])
      { Params.default with kbsrAddr := 0x4000, kbsrReady := 0x8001 })).reg .r0 = 0x8001 ∧
    (State.start { Params.default with pcStart := 0x0200 }).pc = 0x0200 := by decide

/-- The placed word is the one the next step runs, from reset. -/
theorem test_withFetchWord : (after (State.reset.withFetchWord 16 0xE00F)).reg .r0 = 0x3010 := by decide

/-! ### The loader -/

/-- T83, T86. -/
theorem test_load : (load ⟨[0x30, 0x00, 0x12, 0x34, 0x56], false⟩ State.reset).1 = .loaded 0x3000 1 ∧
    (load ⟨[0x40, 0x00, 0xF0, 0x25], false⟩ State.reset).2.rawRead 0x4000 = 0xF025 := by decide

/-- T79, T80, T84. -/
theorem test_load_edges : (load ⟨[], false⟩ State.reset).1 = .loadError ∧ (load ⟨[0x30], false⟩ State.reset).1 = .loadError ∧
    (load ⟨[0xFF, 0xFF, 0xAB, 0xCD, 0x11, 0x11], false⟩ State.reset).1 = .loaded 0xFFFF 1 := by decide

/-- T85: the later image wins. -/
theorem test_load_twice :
    let t := (loadAll [⟨[0x30, 0x00, 0x11, 0x11, 0x22, 0x22], false⟩, ⟨[0x30, 0x01, 0x33, 0x33], false⟩] State.reset).2
    t.rawRead 0x3000 = 0x1111 ∧ t.rawRead 0x3001 = 0x3333 := by decide

/-- W6. -/
theorem test_swap : swap 0x1234 = 0x3412 ∧ swap 0x00FF = 0xFF00 := by decide

/-- W1. -/
theorem test_sext : sext 0b10001#5 = 0xFFF1 ∧ sext 0b01111#5 = 0x000F := by decide

/-! ### Witnesses: a concrete state and operands that meet a statement's hypotheses -/

theorem witness_DecodeEncodeRoundTrip : WellFormed (.jmp .r3) ∧ WellFormed (.trapUnknown 0x30) := by decide

theorem witness_IgnoredBitsDoNotMatter :
    (0x1642 : Word) &&& (decode 0x1642).usedBits = 0x165A &&& (decode 0x1642).usedBits := by decide

theorem witness_SignAndZeroExtension : 0 < 5 ∧ 5 ≤ 16 ∧ 0 < 16 ∧ 15 < 16 := by decide

/-- A flag named and not named, all letters, none. -/
theorem witness_BrTakenByFlag : CondLegal State.reset ∧ State.reset.cond = Config.condZro ∧
    CondLegal (State.reset.setCond .pos) ∧ (State.reset.setCond .pos).cond ≠ Config.condZro :=
  ⟨.inr (.inl rfl), rfl, .inl rfl, by decide⟩

/-- The three clauses on the base. -/
theorem witness_JsrrResult : Reg.r2 ≠ .r7 ∧ State.reset.params.jsrrReadBaseFirst = false ∧
    (withParams State.reset { Params.default with jsrrReadBaseFirst := true }).params.jsrrReadBaseFirst = true := by decide

theorem witness_LinkThenRetReturns : linking (.jsr 4) = true ∧ linking .trapOut = true ∧
    exec (.trapUnknown 0) State.reset = .next State.reset.enterTrap := ⟨rfl, rfl, rfl⟩

theorem witness_LdiStiResult : State.reset.memRead (State.reset.eaPc 2) = (0, State.reset) := rfl

/-- Neither the address nor the pointer is the status cell. -/
theorem witness_LoadFrame :
    exec (.ld .r1 2) State.reset = .next (State.reset.loadFrom .r1 (State.reset.eaPc 2)) ∧
    exec (.ldi .r1 2) State.reset = .next ((State.reset.eaIndirect 2).2.loadFrom .r1 (State.reset.eaIndirect 2).1) ∧
    exec (.ldr .r1 .r2 0) State.reset = .next (State.reset.loadFrom .r1 (State.reset.eaBase .r2 0)) ∧
    State.reset.eaPc 2 ≠ State.reset.params.kbsrAddr ∧
    State.reset.rawRead (State.reset.eaPc 2) ≠ State.reset.params.kbsrAddr ∧
    State.reset.eaBase .r2 0 ≠ State.reset.params.kbsrAddr := ⟨rfl, rfl, rfl, by decide, by decide, by decide⟩

/-- ST, STI and STR to the word the machine fetches next. -/
theorem witness_StoreVisibleToFetch :
    let s := (State.reset.setReg .r4 0x3000).memWrite 0x3001 0x3000
    exec (.st .r3 0) s = .next (s.memWrite (s.eaPc 0) (s.reg .r3)) ∧ storeAddress (.st .r3 0) s = some s.pc ∧
    storeAddress (.sti .r3 1) s = some s.pc ∧ storeAddress (.str .r3 .r4 0) s = some s.pc ∧
    s.pc ≠ s.params.kbsrAddr ∧ s.run = .running := ⟨rfl, by decide, by decide, by decide, by decide, rfl⟩

theorem witness_GetcInResult : (withInput State.reset [some 0x41]).answer = some 0x41 := rfl

theorem witness_InputClosedResult : (withInput State.reset [none]).answer = none := rfl

/-- "HI" at 0x4000. -/
def hiState : State :=
  (((State.reset.setReg .r0 0x4000).memWrite 0x4000 0x0048).memWrite 0x4001 0x0049)

/-- A string of two words, with plain and with polling reads. -/
theorem witness_PutsPutspResult :
    StringOf hiState 2 ∧ StringOf (withParams hiState { Params.default with trapStringReadsPoll := true }) 2 :=
  ⟨⟨by decide, by decide⟩, ⟨by decide, by decide⟩⟩

theorem witness_TrapSavesPc : trapping .trapHalt = true ∧
    exec (.trapUnknown 0) State.reset = .next State.reset.enterTrap := ⟨rfl, rfl⟩

/-- A memory in which every word is 0x0001. -/
def fullMemory : Memory := (List.range 65536).map fun n => (2 * n + 1, 1)

theorem byteAt_of_ones : ∀ (m : Memory) (n : Nat), (∀ c ∈ m, c.2 = 1) → (∃ c ∈ m, c.1 = n) → m.byteAt n = 1
  | [], _, _, h => by simp at h
  | c :: rest, n, hones, hex => by
    by_cases hc : c.1 = n
    · simp [Memory.byteAt, hc, hones c (by simp)]
    · have hrest : ∃ d ∈ rest, d.1 = n := by simpa [hc] using hex
      simp [Memory.byteAt, hc, byteAt_of_ones rest n (fun d hd => hones d (by simp [hd])) hrest]

/-- No word of that memory is zero. -/
theorem fullMemory_ne_zero (a : Word) : fullMemory.word a ≠ 0 := by
  have hlow : fullMemory.byteAt (2 * a.toNat + 1) = 1 := by
    apply byteAt_of_ones
    · intro c hc
      obtain ⟨n, -, rfl⟩ := List.mem_map.mp hc
      rfl
    · exact ⟨(2 * a.toNat + 1, 1), List.mem_map.mpr ⟨a.toNat, List.mem_range.mpr a.isLt, rfl⟩, rfl⟩
  intro h0
  unfold Memory.word at h0
  exact absurd (hlow.symm.trans (append_byte_inj (h0.trans (by decide : (0 : Word) = (0 : Byte) ++ (0 : Byte)))).2) (by decide)

/-- The machine after reset with a given memory. -/
def stateWith (m : Memory) : State := { State.reset with mem := m }

theorem stateWith_polls (m : Memory) : (stateWith m).params.trapStringReadsPoll = false := rfl

/-- A given memory, read by polls that always find a byte. -/
def loudWith (m : Memory) : State :=
  { stateWith m with input := ⟨[], true, 0⟩, params := { Params.default with trapStringReadsPoll := true } }

theorem loudWith_loud (m : Memory) (h : ∀ a, m.word a ≠ 0) : (loudWith m).Loud where
  polls := rfl
  listed := rfl
  endless := rfl
  memory := h
  ready := .inr (show Config.kbsrReady ≠ 0 by decide)

theorem endless_of_nonzero (m : Memory) (h : ∀ a, m.word a ≠ 0) :
    (stateWith m).params.trapStringReadsPoll = false ∧ (∀ i, stringWord (stateWith m) i ≠ 0) ∧
    ∀ i, stringWord (loudWith m) i ≠ 0 :=
  ⟨rfl, fun i h0 => h _ ((State.stringRead_of_raw _ i (stateWith_polls m)).symm.trans h0),
   fun i => State.Loud.stringRead i (loudWith_loud m h) _⟩

/-- With plain reads, and with polling ones. -/
theorem witness_EndlessStringDiverges : (stateWith fullMemory).params.trapStringReadsPoll = false ∧
    (∀ i, stringWord (stateWith fullMemory) i ≠ 0) ∧ ∀ i, stringWord (loudWith fullMemory) i ≠ 0 :=
  endless_of_nonzero fullMemory fullMemory_ne_zero

theorem witness_StringCompletesIffTerminated :
    State.reset.params.trapStringReadsPoll = false ∧ State.reset.run = .running := ⟨rfl, rfl⟩

theorem witness_DivergedForever : (State.reset.setRun (.diverged ⟨.puts, 0⟩)).run = .diverged ⟨.puts, 0⟩ ∧
    (State.reset.setRun (.diverged ⟨.putsp, 0xFFFF⟩)).run = .diverged ⟨.putsp, 0xFFFF⟩ := ⟨rfl, rfl⟩

/-- A polling machine whose R0 points at the status cell. -/
def pollingState : State :=
  withParams (withInput (State.reset.setReg .r0 0xFE00) [none]) { Params.default with trapStringReadsPoll := true }

theorem witness_PollingStringEndsAtEmptyPoll : pollingState.params.trapStringReadsPoll = true ∧
    pollingState.reg .r0 = pollingState.params.kbsrAddr ∧ pollingState.answer = none := by decide

theorem witness_PollingStringEndsOnceNoByte :
    pollingState.params.trapStringReadsPoll = true ∧ none ∈ pollingState.input.listed := by decide

theorem witness_InputByteExtension : Params.default.inputByteExt = .zero ∧
    ({ Params.default with inputByteExt := .sign } : Params).inputByteExt = .sign := ⟨rfl, rfl⟩

theorem witness_PlainReadAndWrite : (0xFE01 : Word) ≠ State.reset.params.kbsrAddr ∧
    State.reset.params.kbdrAddr ≠ State.reset.params.kbsrAddr := by decide

/-- A poll that finds a byte and one that does not, two cells, and one cell for both. -/
theorem witness_KbsrRead : ((withInput State.reset [some 0x61]).memRead State.reset.params.kbsrAddr).1 = 0x8000 ∧
    (withInput State.reset [some 0x61]).answer = some 0x61 ∧ (withInput State.reset [none]).answer = none ∧
    State.reset.params.kbdrAddr ≠ State.reset.params.kbsrAddr ∧
    ({ Params.default with kbdrAddr := 0xFE00 } : Params).kbdrAddr = Params.default.kbsrAddr := by decide

theorem witness_StepRunsDecodedInstruction :
    State.reset.run = .running ∧ State.reset.memRead State.reset.pc = (0, State.reset) := ⟨rfl, rfl⟩

theorem witness_StoppedMachineStays : (State.reset.setRun .halted).run = .halted ∧
    (State.reset.setRun .inputClosed).run = .inputClosed := ⟨rfl, rfl⟩

theorem witness_StepKeepsInvariant : Inv State.reset ∧ step State.reset = .next (after State.reset) :=
  ⟨⟨by decide, .inr (.inl rfl), trivial⟩, rfl⟩

theorem witness_OutputOnlyGrows : step State.reset = .next (after State.reset) := rfl

/-- A register outside the list, an instruction that is not flag-setting, an address outside the stores and the cells. -/
theorem witness_OnlyListedChange : exec (.st .r3 0) State.reset = .next (State.reset.memWrite (State.reset.eaPc 0) 0) ∧
    Reg.r3 ∉ writers (.st .r3 0) ∧ flagSetting (.st .r3 0) = false ∧ storeAddress (.st .r3 0) State.reset ≠ some 0x4000 ∧
    transferring (.st .r3 0) = false ∧ stopping (.st .r3 0) = false ∧ outputting (.st .r3 0) = false :=
  ⟨rfl, by decide, rfl, by decide, rfl, rfl, rfl⟩

/-- A reading instruction and an address that is no keyboard cell. -/
theorem witness_OnlyStoresAndPollsChangeMemory :
    exec (.ld .r1 2) State.reset = .next (State.reset.loadFrom .r1 (State.reset.eaPc 2)) ∧
    storeAddress (.ld .r1 2) State.reset ≠ some 0x4000 ∧ reading (.ld .r1 2) = true ∧
    (0x4000 : Word) ≠ State.reset.params.kbsrAddr ∧ (0x4000 : Word) ≠ State.reset.params.kbdrAddr := ⟨rfl, by decide, rfl, by decide, by decide⟩

/-- The stream of T84: two words, one fits. -/
theorem witness_LoadWritesImage :
    (load ⟨0xFF :: 0xFF :: [0xAB, 0xCD, 0x11, 0x11], false⟩ State.reset).1 = .loaded 0xFFFF 1 ∧
    (65535 : Nat) = 256 * (0xFF : Byte).toNat + (0xFF : Byte).toNat ∧ 1 = min (4 / 2) (65536 - 65535) := by decide

/-- Too short, failing one word before the capacity is used up, and failing right behind it. -/
theorem witness_LoadErrors : [(0x30 : Byte)].length < 2 ∧
    [(0x11 : Byte), 0x22].length / 2 < 65536 - (256 * (0xFF : Byte).toNat + (0xFE : Byte).toNat) ∧
    65536 - (256 * (0xFF : Byte).toNat + (0xFF : Byte).toNat) ≤ [(0xAB : Byte), 0xCD].length / 2 := by decide

/-- The second image of T85 and its one word. -/
theorem witness_LaterImageWins : 256 * (0x30 : Byte).toNat + (0x01 : Byte).toNat ≤ (0x3001 : Word).toNat ∧
    (0x3001 : Word).toNat < 256 * (0x30 : Byte).toNat + (0x01 : Byte).toNat + [(0x33 : Byte), 0x33].length / 2 := by decide

end Sys2Proof.Tests
end

section
/-! Sign and zero extension (R10): bits and signed value. -/

namespace Sys2Proof.Machine

/-- R10: past the field's own bits, `sext_16` repeats the last one, bit `n - 1`. -/
theorem getLsbD_sext {n i : Nat} (f : BitVec n) (hn : 0 < n) (hi : i < 16) :
    (sext f).getLsbD i = f.getLsbD (min i (n - 1)) := by
  rw [sext, BitVec.getLsbD_signExtend, decide_eq_true hi, Bool.true_and]
  split
  case isTrue hin =>
    have hmin : min i (n - 1) = i := by omega
    rw [hmin]
  case isFalse hin =>
    have hmin : min i (n - 1) = n - 1 := by omega
    rw [hmin, BitVec.msb_eq_getLsbD_last]

theorem toInt_sext {n : Nat} (f : BitVec n) (h : n ≤ 16) : (sext f).toInt = f.toInt :=
  BitVec.toInt_signExtend_of_le h

/-- R10: `zext_16` fills with zeros from bit `n` on. -/
theorem getLsbD_zext {n i : Nat} (f : BitVec n) (hi : i < 16) :
    (f.setWidth 16).getLsbD i = (decide (i < n) && f.getLsbD i) := by
  rw [BitVec.getLsbD_setWidth, decide_eq_true hi, Bool.true_and]
  by_cases hin : i < n
  · rw [decide_eq_true hin, Bool.true_and]
  · rw [decide_eq_false hin, Bool.false_and, BitVec.getLsbD_of_ge f i (Nat.not_lt.mp hin)]

/-- Settles O7: the bits and the signed value for every width; the two fixed fields are evaluated. -/
theorem signAndZeroExtension : Obligations.SignAndZeroExtension := by
  refine ⟨fun n f hn h16 => ⟨?_, ?_, ?_⟩, by decide, by decide⟩
  · exact fun i hi => getLsbD_sext f hn hi
  · exact toInt_sext f h16
  · exact fun i hi => getLsbD_zext f hi

end Sys2Proof.Machine
end

section
/-! The output along a step (R13, R29): it is only appended to. -/

namespace Sys2Proof.Machine

/-- R80: fetching a word and advancing `pc` writes nothing. -/
@[simp] theorem State.out_fetch (s : State) : s.fetch.2.out = s.out := by simp [State.fetch]

/-- R162: a step in DIVERGED appends the bytes of the word it reads. -/
@[simp] theorem State.out_divergedStep (s : State) (l : StringLoop) :
    (s.divergedStep l).out = s.out ++ stringBytes l.kind (s.strRead l.ptr).1 := by simp [State.divergedStep]

/-- Settles O55, by run state: `exec_keeps` in RUNNING, the appended bytes in DIVERGED, the identity when stopped. -/
theorem outputOnlyGrows : Obligations.OutputOnlyGrows := by
  intro s t h
  cases hrun : s.run with
  | running =>
    rw [step_running hrun] at h
    obtain ⟨-, hout, -⟩ := exec_keeps h
    rwa [State.out_fetch] at hout
  | diverged l =>
    obtain rfl := next_inj ((step_diverged hrun).symm.trans h)
    rw [State.out_divergedStep]
    exact List.prefix_append _ _
  | halted =>
    obtain rfl := next_inj ((step_halted hrun).symm.trans h)
    exact List.prefix_refl _
  | inputClosed =>
    obtain rfl := next_inj ((step_inputClosed hrun).symm.trans h)
    exact List.prefix_refl _

end Sys2Proof.Machine
end

section
/-! `set_flags` (R24) and the start of a session (R31). -/

namespace Sys2Proof.Machine

/-- R24: `set_flags` writes COND, from the value. -/
theorem State.setFlags_eq (s : State) (v : Word) : s.setFlags v = { s with cond := condFor v } :=
  congrArg (fun c => { s with cond := c }) (flagWord_flagOf v)

/-- Settles O8: `condFor` is the statement's own case split. -/
theorem setFlagsRule : Obligations.SetFlagsRule := State.setFlags_eq

/-- Settles O48: every register of the zero file and every word of the empty memory is 0; the rest is the start state's own
fields and the defaults. -/
theorem resetState : Obligations.ResetState :=
  ⟨fun _ => ⟨Regs.get_zero, rfl, rfl, Memory.word_nil, rfl, rfl, rfl⟩, rfl, rfl, rfl, rfl, rfl, rfl, rfl, rfl, rfl⟩

/-- The start of a session meets the invariant, whatever the parameters. -/
theorem Inv.start (p : Params) : Inv (State.start p) where
  memWf := ⟨List.Pairwise.nil, fun _ hc => absurd hc List.not_mem_nil⟩
  condLegal := .inr (.inl rfl)
  runCoherent := trivial

/-- Settles O49. -/
theorem resetMeetsInvariant : Obligations.ResetMeetsInvariant := ⟨Inv.start Params.default, Inv.start⟩

end Sys2Proof.Machine
end

section
/-! What the shared operations leave unchanged, and what an instruction does (R21, R22, R25, R27, R29). -/

namespace Sys2Proof.Machine

/-! ### Results and loads -/

@[simp] theorem State.reg_writeResult (s : State) (r q : Reg) (v : Word) :
    (s.writeResult r v).reg q = if q = r then v else s.reg q := State.reg_setReg s r q v
@[simp] theorem State.pc_writeResult (s : State) (r : Reg) (v : Word) : (s.writeResult r v).pc = s.pc := rfl
@[simp] theorem State.run_writeResult (s : State) (r : Reg) (v : Word) : (s.writeResult r v).run = s.run := rfl
@[simp] theorem State.out_writeResult (s : State) (r : Reg) (v : Word) : (s.writeResult r v).out = s.out := rfl

/-- What `set_flags` leaves in COND is one of the three flags (R23, R24). -/
theorem State.condLegal_writeResult (s : State) (r : Reg) (v : Word) : CondLegal (s.writeResult r v) :=
  flagWord_legal (flagOf v)

/-- The loads' common end: a result written to the state the read left (R120 to R122). -/
@[simp] theorem State.loadFrom_eq (s : State) (dr : Reg) (ea : Word) :
    s.loadFrom dr ea = (s.afterRead ea).writeResult dr ((s.afterRead ea).rawRead ea) := rfl

/-- The pointer read of LDI and STI is a `MemRead` (R121, R125). -/
@[simp] theorem State.eaIndirect_snd (s : State) (off : BitVec 9) : (s.eaIndirect off).2 = s.afterRead (s.eaPc off) := rfl

/-! ### Traps -/

@[simp] theorem State.reg_enterTrap (s : State) (q : Reg) : s.enterTrap.reg q = if q = .r7 then s.pc else s.reg q :=
  State.reg_setReg s .r7 q s.pc
@[simp] theorem State.pc_enterTrap (s : State) : s.enterTrap.pc = s.pc := rfl
@[simp] theorem State.cond_enterTrap (s : State) : s.enterTrap.cond = s.cond := rfl
@[simp] theorem State.run_enterTrap (s : State) : s.enterTrap.run = s.run := rfl
@[simp] theorem State.out_enterTrap (s : State) : s.enterTrap.out = s.out := rfl

theorem State.reg_readChar_of_ne (s : State) (echo : Byte → List Byte) {r : Reg} (hr : r ≠ .r0) :
    (s.readChar echo).reg r = s.reg r := by
  cases hans : s.answer with
  | some b =>
    obtain ⟨-, -, hreg, -⟩ := State.readChar_of_byte echo hans
    exact hreg r hr
  | none =>
    obtain ⟨-, -, hreg, -⟩ := State.readChar_of_closed echo hans
    exact hreg r hr

@[simp] theorem State.pc_readChar (s : State) (echo : Byte → List Byte) : (s.readChar echo).pc = s.pc := by
  cases hans : s.answer with
  | some b =>
    obtain ⟨-, -, -, heq⟩ := State.readChar_of_byte echo hans
    rw [heq, State.pc_consume]
  | none =>
    obtain ⟨-, -, -, hpc, -⟩ := State.readChar_of_closed echo hans
    exact hpc

/-- R152: a read without echo writes no output. -/
@[simp] theorem State.out_readChar_silent (s : State) : (s.readChar fun _ => []).out = s.out := by
  cases hans : s.answer with
  | some b =>
    obtain ⟨-, -, -, heq⟩ := State.readChar_of_byte (fun _ => []) hans
    rw [heq, List.append_nil]
  | none =>
    obtain ⟨-, -, -, -, -, hout, -⟩ := State.readChar_of_closed (fun _ => []) hans
    exact hout

theorem State.run_readChar (s : State) (echo : Byte → List Byte) :
    (s.readChar echo).run = s.run ∨ (s.readChar echo).run = .inputClosed := by
  cases hans : s.answer with
  | some b =>
    obtain ⟨-, -, -, heq⟩ := State.readChar_of_byte echo hans
    left
    rw [heq, State.run_consume]
  | none =>
    obtain ⟨hrun, -⟩ := State.readChar_of_closed echo hans
    exact .inr hrun

/-- R152, R153: with a byte or without one, COND is one of the three flags. -/
theorem State.condLegal_readChar (s : State) (echo : Byte → List Byte) : CondLegal (s.readChar echo) := by
  cases hans : s.answer with
  | some b =>
    obtain ⟨-, hcond, -⟩ := State.readChar_of_byte echo hans
    rw [CondLegal, hcond, ← flagWord_flagOf]
    exact flagWord_legal _
  | none =>
    obtain ⟨-, hcond, -⟩ := State.readChar_of_closed echo hans
    exact hcond

@[simp] theorem State.regs_stringTrap (s : State) (k : StringKind) : (s.stringTrap k).regs = s.regs := by
  obtain ⟨bs, heq, -⟩ := s.stringTrap_frame k
  rw [heq]
@[simp] theorem State.reg_stringTrap (s : State) (k : StringKind) (r : Reg) : (s.stringTrap k).reg r = s.reg r := by
  simp [State.reg]
@[simp] theorem State.pc_stringTrap (s : State) (k : StringKind) : (s.stringTrap k).pc = s.pc := by
  obtain ⟨bs, heq, -⟩ := s.stringTrap_frame k
  rw [heq]
@[simp] theorem State.cond_stringTrap (s : State) (k : StringKind) : (s.stringTrap k).cond = s.cond := by
  obtain ⟨bs, heq, -⟩ := s.stringTrap_frame k
  rw [heq]

/-! ### Instructions -/

/-- R21: the registers an instruction may write are those of `writers`. -/
theorem exec_reg {i : Instr} {s t : State} {r : Reg} (h : exec i s = .next t) (hr : r ∉ writers i) : t.reg r = s.reg r := by
  cases i <;> obtain rfl := next_inj h <;> simp only [writers, List.mem_cons, List.not_mem_nil, or_false, not_or] at hr
  case addReg | addImm | andReg | andImm | not | lea | ld | ldi | ldr => simp [hr]
  case st | sti | str => simp
  case br => split <;> rfl
  case jmp | ret | rti | res => rfl
  case jsr => simp [State.link, hr]
  case jsrr => split <;> simp [State.link, State.jumpTo, hr]
  case trapGetc | trapIn =>
    obtain ⟨h7, h0⟩ := hr
    simp [State.reg_readChar_of_ne _ _ h0, h7]
  case trapPuts | trapPutsp | trapOut | trapHalt | trapUnknown => simp [hr]

/-- R25: an instruction that is not flag-setting keeps COND. -/
theorem exec_cond {i : Instr} {s t : State} (h : exec i s = .next t) (hf : flagSetting i = false) : t.cond = s.cond := by
  cases i <;> obtain rfl := next_inj h
  case addReg | addImm | andReg | andImm | not | lea | ld | ldi | ldr | trapGetc | trapIn => cases hf
  case br | jsrr => split <;> rfl
  case sti | trapPuts | trapPutsp => simp
  case jmp | ret | jsr | st | str | rti | res | trapOut | trapHalt | trapUnknown => rfl

/-- R22: beside the cycle only a control transfer writes PC. -/
theorem exec_pc {i : Instr} {s t : State} (h : exec i s = .next t) (hi : transferring i = false) : t.pc = s.pc := by
  cases i <;> obtain rfl := next_inj h
  case br | jmp | ret | jsr | jsrr => cases hi
  case ld | ldi | ldr | sti | trapGetc | trapIn | trapPuts | trapPutsp => simp
  case addReg | addImm | andReg | andImm | not | lea | st | str | rti | res | trapOut | trapHalt | trapUnknown => rfl

/-- R27: only a stopping instruction writes the run state. -/
theorem exec_run {i : Instr} {s t : State} (h : exec i s = .next t) (hi : stopping i = false) : t.run = s.run := by
  cases i <;> obtain rfl := next_inj h
  case rti | res | trapHalt | trapGetc | trapIn | trapPuts | trapPutsp => cases hi
  case br | jsrr => split <;> rfl
  case ld | ldi | ldr | sti => simp
  case addReg | addImm | andReg | andImm | not | lea | jmp | ret | jsr | st | str | trapOut | trapUnknown => rfl

/-- R29: only an output routine writes the output. -/
theorem exec_out {i : Instr} {s t : State} (h : exec i s = .next t) (hi : outputting i = false) : t.out = s.out := by
  cases i <;> obtain rfl := next_inj h
  case trapOut | trapPuts | trapIn | trapPutsp | trapHalt => cases hi
  case br | jsrr => split <;> rfl
  case ld | ldi | ldr | sti | trapGetc => simp
  case addReg | addImm | andReg | andImm | not | lea | jmp | ret | jsr | st | str | rti | res | trapUnknown => rfl

/-- Settles O51, instruction by instruction in `exec_reg`. -/
theorem onlyListedRegistersChange : Obligations.OnlyListedRegistersChange := fun _ _ _ _ => exec_reg

/-- Settles O52, instruction by instruction in `exec_cond`. -/
theorem onlyFlagSettersWriteCond : Obligations.OnlyFlagSettersWriteCond := fun _ _ _ => exec_cond

/-- Settles O54, one field at a time. -/
theorem onlyListedInstructionsChange : Obligations.OnlyListedInstructionsChange := by
  intro i s t h
  obtain ⟨hparams, -, -⟩ := exec_keeps h
  exact ⟨exec_pc h, exec_run h, exec_out h, hparams⟩

end Sys2Proof.Machine
end

section
/-! The invariant along a step (R23, R40, R162): canonical memory, a legal COND, DIVERGED only on an endless string. -/

namespace Sys2Proof.Machine

/-! ### The run state -/

theorem RunCoherent.of_running {s : State} (h : s.run = .running) : RunCoherent s := by
  rw [RunCoherent, h]
  trivial

theorem RunCoherent.of_inputClosed {s : State} (h : s.run = .inputClosed) : RunCoherent s := by
  rw [RunCoherent, h]
  trivial

theorem runCoherent_of_diverged {s : State} {l : StringLoop} (h : s.run = .diverged l) :
    RunCoherent s ↔ ∀ n, s.stringRead l.ptr n ≠ 0 := by
  rw [RunCoherent, h]

/-- R153: a read that finds the input closed stops a running machine, and another one leaves it running. -/
theorem RunCoherent.readChar {s : State} (echo : Byte → List Byte) (h : s.run = .running) :
    RunCoherent (s.readChar echo) := by
  rcases s.run_readChar echo with hrun | hrun
  · exact .of_running (hrun.trans h)
  · exact .of_inputClosed hrun

/-- R162: a string routine becomes DIVERGED only when none of its reads is ever zero; the reads after its whole passes are
reads of the same endless sequence. -/
theorem RunCoherent.stringTrap {s : State} (k : StringKind) (h : s.run = .running) : RunCoherent (s.stringTrap k) := by
  rcases s.stringTrap_cases k with ⟨n, -, -, heq⟩ | ⟨hall, heq⟩
  · rw [heq]
    exact .of_running (by simpa using h)
  · rw [heq, runCoherent_of_diverged (State.run_setRun _ _)]
    intro n
    have hlater := hall (65536 * s.passes + n)
    rw [stringWord, State.stringRead_add, add_passes] at hlater
    simpa using hlater

@[simp] theorem State.run_divergedStep (s : State) (l : StringLoop) :
    (s.divergedStep l).run = .diverged ⟨l.kind, l.ptr + 1⟩ := rfl

/-- R162: a step in DIVERGED goes on in the same endless sequence, one read further. -/
theorem RunCoherent.divergedStep {s : State} {l : StringLoop} (hl : s.run = .diverged l) (h : RunCoherent s) :
    RunCoherent (s.divergedStep l) := by
  rw [runCoherent_of_diverged hl] at h
  rw [runCoherent_of_diverged (s.run_divergedStep l)]
  intro n
  have hnext := h (n + 1)
  rw [State.stringRead_succ] at hnext
  simpa [State.divergedStep] using hnext

/-! ### Instructions -/

/-- R23: an instruction keeps COND or writes one of the three flags. -/
theorem exec_condLegal {i : Instr} {s t : State} (h : exec i s = .next t) (hs : CondLegal s) : CondLegal t := by
  cases hf : flagSetting i with
  | false => rwa [CondLegal, exec_cond h hf]
  | true =>
    cases i <;> obtain rfl := next_inj h
    case addReg | addImm | andReg | andImm | not | lea | ld | ldi | ldr => exact State.condLegal_writeResult _ _ _
    case trapGetc | trapIn => exact State.condLegal_readChar _ _
    all_goals cases hf

/-- R27, R162: from RUNNING an instruction leaves a coherent run state. -/
theorem exec_runCoherent {i : Instr} {s t : State} (h : exec i s = .next t) (hs : s.run = .running) : RunCoherent t := by
  cases hi : stopping i with
  | false => exact .of_running ((exec_run h hi).trans hs)
  | true =>
    cases i <;> obtain rfl := next_inj h
    case rti | res | trapHalt => exact trivial
    case trapGetc | trapIn => exact .readChar _ hs
    case trapPuts | trapPutsp => exact .stringTrap _ hs
    all_goals cases hi

/-! ### Steps -/

theorem Inv.after_exec {i : Instr} {s t : State} (hs : Inv s) (hrun : s.run = .running) (h : exec i s = .next t) : Inv t := by
  obtain ⟨-, -, hmem⟩ := exec_keeps h
  exact ⟨hmem hs.memWf, exec_condLegal h hs.condLegal, exec_runCoherent h hrun⟩

@[simp] theorem State.run_fetch (s : State) : s.fetch.2.run = s.run := by simp [State.fetch]

/-- R80: a fetch, which may poll, keeps the invariant of a running machine. -/
theorem Inv.after_fetch {s : State} (hs : Inv s) (hrun : s.run = .running) : Inv s.fetch.2 where
  memWf := State.wf_afterRead s.pc hs.memWf
  condLegal := by simpa [CondLegal, State.fetch] using hs.condLegal
  runCoherent := .of_running (s.run_fetch.trans hrun)

theorem Inv.after_divergedStep {s : State} {l : StringLoop} (hs : Inv s) (hl : s.run = .diverged l) : Inv (s.divergedStep l) where
  memWf := by
    obtain ⟨-, -, hmem⟩ := s.strRead_eq l.ptr
    exact hmem hs.memWf
  condLegal := by simpa [CondLegal, State.divergedStep] using hs.condLegal
  runCoherent := hs.runCoherent.divergedStep hl

/-- Settles O50, by run state: fetch and instruction in RUNNING, one more read of the endless string in DIVERGED, the identity
when stopped. -/
theorem stepKeepsInvariant : Obligations.StepKeepsInvariant := by
  intro s t hs h
  cases hrun : s.run with
  | running =>
    rw [step_running hrun] at h
    exact (hs.after_fetch hrun).after_exec (s.run_fetch.trans hrun) h
  | diverged l =>
    obtain rfl := next_inj ((step_diverged hrun).symm.trans h)
    exact hs.after_divergedStep hrun
  | halted =>
    obtain rfl := next_inj ((step_halted hrun).symm.trans h)
    exact hs
  | inputClosed =>
    obtain rfl := next_inj ((step_inputClosed hrun).symm.trans h)
    exact hs

end Sys2Proof.Machine
end

section
/-! `MemWrite` and `MemRead` (R41 to R44): what each gives and leaves unchanged. -/

namespace Sys2Proof.Machine

/-- R42: a write sets its word, the keyboard cells included, and no other. -/
theorem State.memWrite_wrote (s : State) (a v : Word) : WroteWord s (s.memWrite a v) a v :=
  ⟨by simp, fun b hb => by simp [hb], rfl⟩

/-- R41: at any address but the status cell a read is plain. -/
theorem State.memRead_of_ne {s : State} {a : Word} (h : a ≠ s.params.kbsrAddr) : s.memRead a = (s.rawRead a, s) := by
  rw [State.memRead, State.afterRead_of_ne s h]

/-- R43: a read of the status cell is the refreshed cell. -/
theorem State.memRead_kbsr (s : State) :
    s.memRead s.params.kbsrAddr = (s.refreshKeyboard.rawRead s.params.kbsrAddr, s.refreshKeyboard) := by
  rw [State.memRead, State.afterRead_kbsr]

/-- Settles O43. -/
theorem plainReadAndWrite : Obligations.PlainReadAndWrite := fun s a v =>
  ⟨s.memWrite_wrote a v, State.memRead_of_ne, State.memRead_of_ne⟩

/-- Settles O44, from what a refresh leaves in each cell (`State.refreshKeyboard_eq`). -/
theorem kbsrRead : Obligations.KbsrRead := by
  intro s t v h
  obtain ⟨rfl, rfl⟩ := Prod.mk.inj (s.memRead_kbsr.symm.trans h)
  obtain ⟨hframe, hkbsr, hkbdr, hother⟩ := s.refreshKeyboard_eq
  refine ⟨rfl, hframe, hother, ?byteTwoCells, ?byteOneCell, ?noByte⟩
  case byteTwoCells =>
    intro b hb hne
    have hplain : s.params.kbdrAddr ≠ s.refreshKeyboard.params.kbsrAddr := by rwa [State.params_refreshKeyboard]
    rw [State.memRead_of_ne hplain]
    simp [hkbsr, hkbdr, hb, hne]
  case byteOneCell =>
    intro b hb heq
    simp [hkbsr, hb, heq]
  case noByte =>
    intro hnone
    exact ⟨by simp [hkbsr, hnone], fun hne => by simp [hkbdr, hnone, hne]⟩

end Sys2Proof.Machine
end

section
/-! The words, registers and fields that loads and stores leave unchanged (R45, R120 to R126), and a store to the next fetch
address (R57). -/

namespace Sys2Proof.Machine

/-! ### Memory after the shared operations -/

@[simp] theorem State.rawRead_writeResult (s : State) (r : Reg) (v a : Word) : (s.writeResult r v).rawRead a = s.rawRead a := rfl

/-- R43: a read changes no word but the keyboard cells. -/
theorem State.rawRead_afterRead {s : State} {a : Word} (hk : a ≠ s.params.kbsrAddr) (hd : a ≠ s.params.kbdrAddr) (ea : Word) :
    (s.afterRead ea).rawRead a = s.rawRead a := by
  obtain ⟨-, hother⟩ := s.afterRead_eq ea
  exact hother a hk hd

@[simp] theorem State.rawRead_enterTrap (s : State) (a : Word) : s.enterTrap.rawRead a = s.rawRead a := rfl

/-- R152, R153: `InRead` writes no word of memory, with a byte or without one. -/
@[simp] theorem State.rawRead_readChar (s : State) (echo : Byte → List Byte) (a : Word) :
    (s.readChar echo).rawRead a = s.rawRead a := by
  cases hans : s.answer with
  | some b =>
    obtain ⟨-, -, -, heq⟩ := State.readChar_of_byte echo hans
    rw [heq]
    rfl
  | none =>
    obtain ⟨-, -, -, -, hmem, -⟩ := State.readChar_of_closed echo hans
    rw [State.rawRead, hmem, State.rawRead]

/-- R160: a string routine changes no word but the keyboard cells. -/
theorem State.rawRead_stringTrap {s : State} {a : Word} (hk : a ≠ s.params.kbsrAddr) (hd : a ≠ s.params.kbdrAddr)
    (k : StringKind) : (s.stringTrap k).rawRead a = s.rawRead a := by
  obtain ⟨-, -, hother, -⟩ := s.stringTrap_frame k
  exact hother a hk hd

/-! ### Memory after an instruction -/

/-- R45: an instruction changes no word but the one it stores to and, if it reads memory, the keyboard cells. -/
theorem exec_rawRead {i : Instr} {s t : State} {a : Word} (h : exec i s = .next t) (hstore : storeAddress i s ≠ some a)
    (hread : reading i = true → a ≠ s.params.kbsrAddr ∧ a ≠ s.params.kbdrAddr) : t.rawRead a = s.rawRead a := by
  cases i <;> obtain rfl := next_inj h
  case ld | ldr =>
    obtain ⟨hk, hd⟩ := hread rfl
    simp [State.rawRead_afterRead hk hd]
  case ldi =>
    obtain ⟨hk, hd⟩ := hread rfl
    rw [State.loadFrom_eq, State.rawRead_writeResult, State.eaIndirect_snd, State.rawRead_afterRead (by simpa) (by simpa),
      State.rawRead_afterRead hk hd]
  case st | str =>
    rw [State.rawRead_memWrite, if_neg]
    rintro rfl
    exact hstore rfl
  case sti =>
    obtain ⟨hk, hd⟩ := hread rfl
    rw [State.rawRead_memWrite, if_neg, State.eaIndirect_snd, State.rawRead_afterRead hk hd]
    rintro rfl
    exact hstore rfl
  case trapPuts | trapPutsp =>
    obtain ⟨hk, hd⟩ := hread rfl
    exact (State.rawRead_stringTrap (s := s.enterTrap) hk hd _).trans (s.rawRead_enterTrap a)
  case trapGetc | trapIn => simp
  case br | jsrr => split <;> rfl
  case addReg | addImm | andReg | andImm | not | lea | jmp | ret | jsr | rti | res | trapOut | trapHalt | trapUnknown => rfl

/-- Settles O53, instruction by instruction in `exec_rawRead`. -/
theorem onlyStoresAndPollsChangeMemory : Obligations.OnlyStoresAndPollsChangeMemory := fun _ _ _ _ => exec_rawRead

/-! ### Loads -/

/-- R22, R27, R29: an instruction on none of the three lists changes registers, COND, memory and the input at most. -/
theorem exec_eq_of_unlisted {i : Instr} {s t : State} (h : exec i s = .next t) (hpc : transferring i = false)
    (hrun : stopping i = false) (hout : outputting i = false) :
    t = { s with regs := t.regs, cond := t.cond, mem := t.mem, input := t.input } := by
  obtain ⟨hparams, -, -⟩ := exec_keeps h
  rw [← exec_pc h hpc, ← exec_run h hrun, ← exec_out h hout, ← hparams]

/-- A load that does not read the status cell only writes its result (R41, R120, R122). -/
theorem State.loadFrom_of_ne {s : State} {ea : Word} (dr : Reg) (h : ea ≠ s.params.kbsrAddr) :
    s.loadFrom dr ea = s.writeResult dr (s.rawRead ea) := by
  rw [State.loadFrom, State.memRead_of_ne h]

/-- The pointer of LDI and STI, read at another address than the status cell (R41, R121, R125). -/
theorem State.eaIndirect_of_ne {s : State} {off : BitVec 9} (h : s.eaPc off ≠ s.params.kbsrAddr) :
    s.eaIndirect off = (s.rawRead (s.eaPc off), s) := State.memRead_of_ne h

/-- Settles O22: the lists of `writers`, `storeAddress` and the others give the frame, and a load without a poll is one
`writeResult`. -/
theorem loadFrame : Obligations.LoadFrame := by
  intro dr base off off6 s t
  refine ⟨?frame, ?ld, ?ldi, ?ldr⟩
  case frame =>
    rintro (h | h | h) <;>
      exact ⟨fun r hr => exec_reg h (mt List.mem_singleton.mp hr),
        fun a hk hd => exec_rawRead h (Option.some_ne_none a).symm fun _ => ⟨hk, hd⟩, exec_eq_of_unlisted h rfl rfl rfl⟩
  case ld | ldr =>
    intro h hea
    obtain rfl := next_inj h
    rw [State.loadFrom_of_ne dr hea]
    rfl
  case ldi =>
    intro h hea hptr
    obtain rfl := next_inj h
    rw [State.eaIndirect_of_ne hea, State.loadFrom_of_ne dr hptr]
    rfl

/-! ### Stores -/

/-- R124 to R126: the word at a store's address is the stored register. -/
theorem exec_store_rawRead {sr base : Reg} {off : BitVec 9} {off6 : BitVec 6} {i : Instr} {s t : State} {a : Word}
    (hi : i = .st sr off ∨ i = .sti sr off ∨ i = .str sr base off6) (h : exec i s = .next t)
    (ha : storeAddress i s = some a) : t.rawRead a = s.reg sr := by
  rcases hi with rfl | rfl | rfl
  all_goals
    obtain rfl := Option.some.inj ha
    obtain rfl := next_inj h
    simp

/-- R80: a RUNNING machine whose fetch is not at the status cell executes the word that PC points to. -/
theorem step_of_plain_fetch {s : State} (hrun : s.run = .running) (hpc : s.pc ≠ s.params.kbsrAddr) :
    step s = exec (decode (s.rawRead s.pc)) (s.setPc (s.pc + 1)) := by
  rw [step_running hrun, State.fetch, State.memRead_of_ne hpc]

/-- Settles O26: the plain fetch reads what the store wrote. -/
theorem storeVisibleToFetch : Obligations.StoreVisibleToFetch := by
  intro sr base off off6 i s t hi h ha hpc hrun
  have hword : t.rawRead t.pc = s.reg sr := exec_store_rawRead hi h ha
  rw [step_of_plain_fetch hrun hpc, hword]
  rfl

end Sys2Proof.Machine
end

section
/-! Decoder and encoder describe one relation between words and instructions (R61, R63, R64, R67, R70): a word fits an
instruction when it has its opcode and its fields. A word decodes to the instruction it fits, and it fits an instruction
exactly when it agrees with the encoded word on the bits that the format names. -/

namespace Sys2Proof

/-! ### Agreement on the bits of a mask -/

theorem agree_iff_bits {w v m : Word} :
    w &&& m = v &&& m ↔ ∀ i, m.getLsbD i = true → w.getLsbD i = v.getLsbD i := by
  constructor
  case mp =>
    intro h i hm
    simpa [hm] using congrArg (·.getLsbD i) h
  case mpr =>
    intro h
    apply BitVec.eq_of_getLsbD_eq
    intro i _
    cases hm : m.getLsbD i
    · simp [hm]
    · simp [hm, h i hm]

theorem agree_or_iff {w v m n : Word} : w &&& (m ||| n) = v &&& (m ||| n) ↔ w &&& m = v &&& m ∧ w &&& n = v &&& n := by
  simp only [agree_iff_bits, BitVec.getLsbD_or, Bool.or_eq_true, or_imp, forall_and]

/-- The mask of the `len` bits from `lo` on. -/
def fieldMask (lo len : Nat) : Word := (BitVec.allOnes len).setWidth 16 <<< lo

theorem getLsbD_fieldMask {lo len i : Nat} :
    (fieldMask lo len).getLsbD i = true ↔ i < 16 ∧ lo ≤ i ∧ i < lo + len := by
  simp only [fieldMask, BitVec.getLsbD_shiftLeft, BitVec.getLsbD_setWidth, BitVec.getLsbD_allOnes, Bool.and_eq_true,
    decide_eq_true_eq, Bool.not_eq_true', decide_eq_false_iff_not]
  omega

theorem agree_field_iff {w v : Word} {lo len : Nat} :
    w &&& fieldMask lo len = v &&& fieldMask lo len ↔ w.extractLsb' lo len = v.extractLsb' lo len := by
  simp only [agree_iff_bits, getLsbD_fieldMask]
  constructor
  case mp =>
    intro h
    apply BitVec.eq_of_getLsbD_eq
    intro i hi
    simp only [BitVec.getLsbD_extractLsb', hi]
    by_cases hbit : lo + i < 16
    · rw [h (lo + i) (by omega)]
    · rw [BitVec.getLsbD_of_ge _ _ (by omega), BitVec.getLsbD_of_ge _ _ (by omega)]
  case mpr =>
    rintro h i ⟨-, hlo, hlen⟩
    have hbit := congrArg (·.getLsbD (i - lo)) h
    have hi : lo + (i - lo) = i := by omega
    have hlt : i - lo < len := by omega
    simpa [hi, hlt] using hbit

/-! ### Agreement on one field of R61 -/

theorem agree_bit_iff {w v : Word} {k : Nat} (hk : k < 16) :
    w &&& fieldMask k 1 = v &&& fieldMask k 1 ↔ w.getLsbD k = v.getLsbD k := by
  simp only [agree_iff_bits, getLsbD_fieldMask]
  constructor
  case mp =>
    intro h
    exact h k (by omega)
  case mpr =>
    intro h i hi
    obtain rfl : i = k := by omega
    exact h

theorem agree_opcode_iff {w v : Word} : w &&& fieldMask 12 4 = v &&& fieldMask 12 4 ↔ opcodeOf w = opcodeOf v :=
  agree_field_iff

theorem Reg.ofBits_inj {b c : BitVec 3} : Reg.ofBits b = Reg.ofBits c ↔ b = c :=
  ⟨fun h => by rw [← Reg.bits_ofBits b, h, Reg.bits_ofBits], congrArg _⟩

theorem agree_dr_iff {w v : Word} : w &&& fieldMask 9 3 = v &&& fieldMask 9 3 ↔ drOf w = drOf v :=
  agree_field_iff.trans Reg.ofBits_inj.symm

theorem agree_sr1_iff {w v : Word} : w &&& fieldMask 6 3 = v &&& fieldMask 6 3 ↔ sr1Of w = sr1Of v :=
  agree_field_iff.trans Reg.ofBits_inj.symm

theorem agree_sr2_iff {w v : Word} : w &&& fieldMask 0 3 = v &&& fieldMask 0 3 ↔ sr2Of w = sr2Of v :=
  agree_field_iff.trans Reg.ofBits_inj.symm

theorem agree_imm5_iff {w v : Word} : w &&& fieldMask 0 5 = v &&& fieldMask 0 5 ↔ imm5Of w = imm5Of v := agree_field_iff

theorem agree_offset6_iff {w v : Word} : w &&& fieldMask 0 6 = v &&& fieldMask 0 6 ↔ offset6Of w = offset6Of v :=
  agree_field_iff

theorem agree_offset9_iff {w v : Word} : w &&& fieldMask 0 9 = v &&& fieldMask 0 9 ↔ offset9Of w = offset9Of v :=
  agree_field_iff

theorem agree_offset11_iff {w v : Word} : w &&& fieldMask 0 11 = v &&& fieldMask 0 11 ↔ offset11Of w = offset11Of v :=
  agree_field_iff

theorem agree_trapvect8_iff {w v : Word} : w &&& fieldMask 0 8 = v &&& fieldMask 0 8 ↔ trapvect8Of w = trapvect8Of v :=
  agree_field_iff

/-! ### Words of the formats and their fields -/

/-- The bits above the offset of BR's word. -/
theorem getLsbD_word_append (op : BitVec 4) (x : BitVec 3) (off : BitVec 9) {k : Nat} (hlo : 9 ≤ k) (hhi : k < 12) :
    (word op (x ++ off)).getLsbD k = x.getLsbD (k - 9) := by
  rw [getLsbD_word, if_pos hhi, BitVec.getLsbD_append, if_neg (by omega)]

theorem getLsbD_bits (n z p : Bool) :
    (bit n ++ bit z ++ bit p).getLsbD 2 = n ∧ (bit n ++ bit z ++ bit p).getLsbD 1 = z ∧
    (bit n ++ bit z ++ bit p).getLsbD 0 = p := by
  revert n z p
  decide

/-- The condition bits and the offset of BR's word. -/
theorem fields_br (op : BitVec 4) (n z p : Bool) (off : BitVec 9) :
    (word op (bit n ++ bit z ++ bit p ++ off)).getLsbD 11 = n ∧ (word op (bit n ++ bit z ++ bit p ++ off)).getLsbD 10 = z ∧
    (word op (bit n ++ bit z ++ bit p ++ off)).getLsbD 9 = p ∧
    offset9Of (word op (bit n ++ bit z ++ bit p ++ off)) = off := by
  obtain ⟨hn, hz, hp⟩ := getLsbD_bits n z p
  refine ⟨?_, ?_, ?_, ?_⟩
  · exact (getLsbD_word_append _ _ _ (by omega) (by omega)).trans hn
  · exact (getLsbD_word_append _ _ _ (by omega) (by omega)).trans hz
  · exact (getLsbD_word_append _ _ _ (by omega) (by omega)).trans hp
  · rw [offset9Of, extract_word _ _ (by omega), extract_append_low _ _ (by omega), extract_all]

/-- The fixed bit and the offset of JSR's word. -/
theorem fields_jsr (op : BitVec 4) (off : BitVec 11) :
    (word op (1#1 ++ off)).getLsbD 11 = true ∧ offset11Of (word op (1#1 ++ off)) = off := by
  constructor
  · rw [getLsbD_word]
    exact BitVec.getLsbD_append (x := 1#1) (y := off) (i := 11)
  · rw [offset11Of, extract_word _ _ (by omega), extract_append_low _ _ (by omega), extract_all]

/-! ### The words that fit an instruction -/

/-- The operand fields and the fixed bits of an instruction stand in the word (R61, R66). -/
def Instr.OperandsIn (w : Word) : Instr → Prop
  | .addReg dr sr1 sr2 | .andReg dr sr1 sr2 => drOf w = dr ∧ sr1Of w = sr1 ∧ w.getLsbD 5 = false ∧ sr2Of w = sr2
  | .addImm dr sr1 imm5 | .andImm dr sr1 imm5 => drOf w = dr ∧ sr1Of w = sr1 ∧ w.getLsbD 5 = true ∧ imm5Of w = imm5
  | .not dr sr => drOf w = dr ∧ sr1Of w = sr
  | .br n z p off => w.getLsbD 11 = n ∧ w.getLsbD 10 = z ∧ w.getLsbD 9 = p ∧ offset9Of w = off
  | .jmp base => sr1Of w = base
  | .ret => sr1Of w = .r7
  | .jsr off => w.getLsbD 11 = true ∧ offset11Of w = off
  | .jsrr base => w.getLsbD 11 = false ∧ sr1Of w = base
  | .ld r off | .ldi r off | .lea r off | .st r off | .sti r off => drOf w = r ∧ offset9Of w = off
  | .ldr r base off | .str r base off => drOf w = r ∧ sr1Of w = base ∧ offset6Of w = off
  | .rti | .res => True
  | .trapGetc => trapvect8Of w = 0x20
  | .trapOut => trapvect8Of w = 0x21
  | .trapPuts => trapvect8Of w = 0x22
  | .trapIn => trapvect8Of w = 0x23
  | .trapPutsp => trapvect8Of w = 0x24
  | .trapHalt => trapvect8Of w = 0x25
  | .trapUnknown v => trapvect8Of w = v

/-- The word has the instruction's opcode and its operands. -/
def Instr.Fits (i : Instr) (w : Word) : Prop := opcodeOf w = i.opcode ∧ i.OperandsIn w

/-! ### The bits a format names are the opcode and the operands -/

/-- The bits of the operand fields and of the fixed bits (R61). -/
def Instr.operandMask : Instr → Word
  | .addReg _ _ _ | .andReg _ _ _ => fieldMask 9 3 ||| (fieldMask 6 3 ||| (fieldMask 5 1 ||| fieldMask 0 3))
  | .addImm _ _ _ | .andImm _ _ _ => fieldMask 9 3 ||| (fieldMask 6 3 ||| (fieldMask 5 1 ||| fieldMask 0 5))
  | .not _ _ => fieldMask 9 3 ||| fieldMask 6 3
  | .br _ _ _ _ => fieldMask 11 1 ||| (fieldMask 10 1 ||| (fieldMask 9 1 ||| fieldMask 0 9))
  | .jmp _ | .ret => fieldMask 6 3
  | .jsr _ => fieldMask 11 1 ||| fieldMask 0 11
  | .jsrr _ => fieldMask 11 1 ||| fieldMask 6 3
  | .ld _ _ | .ldi _ _ | .lea _ _ | .st _ _ | .sti _ _ => fieldMask 9 3 ||| fieldMask 0 9
  | .ldr _ _ _ | .str _ _ _ => fieldMask 9 3 ||| (fieldMask 6 3 ||| fieldMask 0 6)
  | .rti | .res => 0#16
  | .trapGetc | .trapOut | .trapPuts | .trapIn | .trapPutsp | .trapHalt | .trapUnknown _ => fieldMask 0 8

theorem Instr.usedBits_eq (i : Instr) : i.usedBits = fieldMask 12 4 ||| i.operandMask := by
  cases i <;> simp only [Instr.usedBits, Instr.operandMask] <;> decide

/-- A word agrees on the operands' bits with a word that holds an instruction's operands if and only if it holds them too. -/
theorem agree_operandMask_iff {i : Instr} {w v : Word} (hw : i.OperandsIn w) :
    v &&& i.operandMask = w &&& i.operandMask ↔ i.OperandsIn v := by
  cases i
  all_goals
    simp only [Instr.OperandsIn] at hw ⊢
    simp only [Instr.operandMask, agree_or_iff, agree_bit_iff, agree_dr_iff, agree_sr1_iff, agree_sr2_iff, agree_imm5_iff,
      agree_offset6_iff, agree_offset9_iff, agree_offset11_iff, agree_trapvect8_iff, hw, Nat.reduceLT, BitVec.and_zero]

/-- R67: a word agrees with one that fits an instruction, on the bits that the format names, if and only if it fits too. -/
theorem agree_usedBits_iff {i : Instr} {w v : Word} (hw : i.Fits w) :
    v &&& i.usedBits = w &&& i.usedBits ↔ i.Fits v := by
  obtain ⟨hop, hfields⟩ := hw
  rw [i.usedBits_eq, agree_or_iff, agree_opcode_iff, agree_operandMask_iff hfields, hop, Instr.Fits]

/-! ### The decoder

Of the decoder's nineteen branches, `case16` is opcode 0xC (`decodeJmp`) and `case19` is opcode 0xF (`decodeTrap`). -/

theorem decode_eq_decodeJmp {w : Word} (h : opcodeOf w = 0xC) : decode w = decodeJmp (sr1Of w) := by
  rw [decode, h]
  rfl

theorem decode_eq_decodeTrap {w : Word} (h : opcodeOf w = 0xF) : decode w = decodeTrap (trapvect8Of w) := by
  rw [decode, h]
  rfl

theorem wellFormed_jmp_iff {r : Reg} : WellFormed (.jmp r) ↔ r ≠ .r7 := decide_eq_true_iff

theorem wellFormed_trapUnknown_iff {v : BitVec 8} : WellFormed (.trapUnknown v) ↔ knownVector v = false :=
  iff_of_eq (Bool.not_eq_true' _)

/-- The decoder gives the instruction that a word fits (R70). -/
theorem decode_of_fits {i : Instr} {w : Word} (hi : WellFormed i) (h : i.Fits w) : decode w = i := by
  obtain ⟨hop, hfields⟩ := h
  cases i <;> simp only [Instr.opcode, Instr.OperandsIn] at hop hfields
  case jmp base => rw [decode_eq_decodeJmp hop, hfields, decodeJmp_of_ne (wellFormed_jmp_iff.mp hi)]
  case ret => rw [decode_eq_decodeJmp hop, hfields, decodeJmp]
  case trapUnknown v => rw [decode_eq_decodeTrap hop, hfields, decodeTrap_of_unknown (wellFormed_trapUnknown_iff.mp hi)]
  case trapGetc | trapOut | trapPuts | trapIn | trapPutsp | trapHalt =>
    rw [decode_eq_decodeTrap hop, hfields]
    rfl
  all_goals simp only [decode, hop, hfields, BitVec.toNat_ofNat, BitVec.ofNat_eq_ofNat, reduceIte, Bool.false_eq_true]

theorem opcode_decodeJmp (r : Reg) : (decodeJmp r).opcode = 0xC := by cases r <;> rfl

theorem opcode_decodeTrap (v : BitVec 8) : (decodeTrap v).opcode = 0xF := by
  unfold decodeTrap
  split <;> rfl

theorem opcode_decode (w : Word) : (decode w).opcode = opcodeOf w := by
  apply BitVec.eq_of_toNat_eq
  fun_cases decode w
  case case16 => simp [opcode_decodeJmp, *]
  case case19 =>
    have hlt := (opcodeOf w).isLt
    have h15 : (opcodeOf w).toNat = 15 := by
      simp only [imp_false] at *
      omega
    rw [opcode_decodeTrap, h15]
    rfl
  all_goals simp [Instr.opcode, *]

theorem operandsIn_decodeJmp (w : Word) : (decodeJmp (sr1Of w)).OperandsIn w := by
  cases h : sr1Of w <;> exact h

theorem operandsIn_decodeTrap (w : Word) : (decodeTrap (trapvect8Of w)).OperandsIn w := by
  fun_cases decodeTrap (trapvect8Of w)
  case case7 => rfl
  all_goals exact BitVec.eq_of_toNat_eq ‹_›

theorem operandsIn_decode (w : Word) : (decode w).OperandsIn w := by
  fun_cases decode w
  case case16 => exact operandsIn_decodeJmp w
  case case19 => exact operandsIn_decodeTrap w
  all_goals simp_all only [Instr.OperandsIn, Bool.not_eq_true, and_self]

theorem fits_decode (w : Word) : (decode w).Fits w := ⟨(opcode_decode w).symm, operandsIn_decode w⟩

/-! ### The encoder -/

/-- An encoded word has the opcode and the operands of its instruction (R61, R64). -/
theorem fits_encode (i : Instr) : i.Fits (encode i) := by
  cases i
  case addReg dr sr1 sr2 | andReg dr sr1 sr2 =>
    obtain ⟨hdr, hsr1, hsr2, hbit⟩ := fields_fmtOpReg _ dr sr1 sr2
    exact ⟨opcodeOf_fmtOpReg .., hdr, hsr1, hbit, hsr2⟩
  case addImm dr sr1 imm5 | andImm dr sr1 imm5 =>
    obtain ⟨hdr, hsr1, himm, hbit⟩ := fields_fmtOpImm _ dr sr1 imm5
    exact ⟨opcodeOf_fmtOpImm .., hdr, hsr1, hbit, himm⟩
  case not dr sr =>
    obtain ⟨hdr, hsr, -⟩ := fields_fmtBase 0x9 dr sr 0b111111#6
    exact ⟨opcodeOf_fmtBase .., hdr, hsr⟩
  case br n z p off => exact ⟨opcodeOf_word .., fields_br ..⟩
  case jmp base =>
    obtain ⟨-, hbase, -⟩ := fields_fmtBase 0xC .r0 base 0#6
    exact ⟨opcodeOf_word .., hbase⟩
  case ret => exact ⟨rfl, rfl⟩
  case jsr off => exact ⟨opcodeOf_word .., fields_jsr ..⟩
  case jsrr base =>
    obtain ⟨-, hbase, -⟩ := fields_fmtBase 0x4 .r0 base 0#6
    exact ⟨opcodeOf_word .., by cases base <;> rfl, hbase⟩
  case ld r off | ldi r off | lea r off | st r off | sti r off => exact ⟨opcodeOf_fmtPcRel .., fields_fmtPcRel ..⟩
  case ldr r base off | str r base off => exact ⟨opcodeOf_fmtBase .., fields_fmtBase ..⟩
  case rti | res => exact ⟨rfl, trivial⟩
  case trapGetc | trapOut | trapPuts | trapIn | trapPutsp | trapHalt | trapUnknown =>
    exact ⟨opcodeOf_fmtTrap _, trapvect8Of_fmtTrap _⟩

/-! ### The obligations on encodings -/

/-- Settles O1: each word is evaluated. -/
theorem decodeSampleWords : Obligations.DecodeSampleWords := by
  unfold Obligations.DecodeSampleWords
  decide

/-- Settles O2: the encoded word fits, and a word decodes to what it fits. -/
theorem decodeEncodeRoundTrip : Obligations.DecodeEncodeRoundTrip := fun i hi => decode_of_fits hi (fits_encode i)

/-- Settles O3, by the branches of the decoder: only JMP and TRAP can answer a term that is not well-formed. -/
theorem decodeIsWellFormed : Obligations.DecodeIsWellFormed := by
  intro w
  fun_cases decode w
  case case16 => exact decodeJmp_wellFormed _
  case case19 => exact decodeTrap_wellFormed _
  all_goals rfl

/-- Settles O4: the word and its encoded instruction both fit, so they agree on the format's bits. -/
theorem encodeDecodeKeepsUsedBits : Obligations.EncodeDecodeKeepsUsedBits := fun w =>
  (agree_usedBits_iff (fits_decode w)).mpr (fits_encode (decode w))

/-- Settles O5: a word that agrees with `w` on the format's bits fits the instruction that `w` fits. -/
theorem ignoredBitsDoNotMatter : Obligations.IgnoredBitsDoNotMatter := fun w _ h =>
  decode_of_fits (decodeIsWellFormed w) ((agree_usedBits_iff (fits_decode w)).mp h.symm)

end Sys2Proof
end

section
/-! The decoder against the opcode table (R70): a word is in the row of every word that has its opcode and its bits in the
masks of that opcode's rows, so one word of each row decides for all of them. -/

namespace Sys2Proof

theorem opcodeOf_and (w m : Word) : opcodeOf (w &&& m) = opcodeOf w &&& opcodeOf m := BitVec.extractLsb'_and

/-- A row that a word meets has its opcode. -/
theorem opcodeOf_of_meets {row : OpcodeRow} {w : Word} (hrow : row ∈ opcodeTable) (h : w &&& row.mask = row.pattern) :
    opcodeOf row.pattern = opcodeOf w := by
  have hmask : ∀ r ∈ opcodeTable, opcodeOf r.mask = BitVec.allOnes 4 := by decide
  rw [← h, opcodeOf_and, hmask row hrow, BitVec.and_allOnes]

/-- Words of one opcode that agree on the other bits that its rows look at are in the same row. -/
theorem tableMnemonic_congr {w v : Word} (n : Word) (hop : opcodeOf w = opcodeOf v) (hn : w &&& n = v &&& n)
    (hrows : ∀ row ∈ opcodeTable, opcodeOf row.pattern = opcodeOf v → row.mask &&& (fieldMask 12 4 ||| n) = row.mask) :
    tableMnemonic w = tableMnemonic v := by
  have hagree : w &&& (fieldMask 12 4 ||| n) = v &&& (fieldMask 12 4 ||| n) :=
    agree_or_iff.mpr ⟨agree_opcode_iff.mpr hop, hn⟩
  unfold tableMnemonic
  congr 1
  apply List.find?_congr
  intro row hrow
  by_cases hpat : opcodeOf row.pattern = opcodeOf v
  case pos => rw [← hrows row hrow hpat, BitVec.and_comm row.mask, ← BitVec.and_assoc, ← BitVec.and_assoc, hagree]
  case neg =>
    have hw : w &&& row.mask ≠ row.pattern := fun h => hpat ((opcodeOf_of_meets hrow h).trans hop)
    have hv : v &&& row.mask ≠ row.pattern := fun h => hpat (opcodeOf_of_meets hrow h)
    rw [beq_eq_false_iff_ne.mpr hw, beq_eq_false_iff_ne.mpr hv]

theorem tableMnemonic_of_opcode {w : Word} {op : BitVec 4} (hop : opcodeOf w = op)
    (hrows : ∀ row ∈ opcodeTable, opcodeOf row.pattern = op → row.mask = 0xF000) :
    tableMnemonic w = tableMnemonic (word op 0) := by
  apply tableMnemonic_congr 0#16 (by rw [hop, opcodeOf_word]) (by rw [BitVec.and_zero, BitVec.and_zero])
  intro row hrow hpat
  rw [hrows row hrow (hpat.trans (opcodeOf_word op 0))]
  decide

theorem tableMnemonic_of_bit {w : Word} {op : BitVec 4} {k : Nat} (x : BitVec 12) (hk : k < 12) (hop : opcodeOf w = op)
    (hbit : w.getLsbD k = x.getLsbD k)
    (hrows : ∀ row ∈ opcodeTable, opcodeOf row.pattern = op →
      row.mask &&& (fieldMask 12 4 ||| fieldMask k 1) = row.mask) :
    tableMnemonic w = tableMnemonic (word op x) := by
  have hword : (word op x).getLsbD k = x.getLsbD k := by rw [getLsbD_word, if_pos hk]
  apply tableMnemonic_congr _ (hop.trans (opcodeOf_word op x).symm) ((agree_bit_iff (by omega)).mpr (hbit.trans hword.symm))
  rwa [opcodeOf_word]

theorem tableMnemonic_of_base {w : Word} {r : Reg} (hop : opcodeOf w = 0xC) (hr : sr1Of w = r) :
    tableMnemonic w = tableMnemonic (fmtBase 0xC .r0 r 0) := by
  obtain ⟨-, hbase, -⟩ := fields_fmtBase 0xC .r0 r 0
  apply tableMnemonic_congr (fieldMask 6 3) (by rw [hop, opcodeOf_fmtBase]) (agree_sr1_iff.mpr (hr.trans hbase.symm))
  rw [opcodeOf_fmtBase]
  decide

theorem tableMnemonic_of_vector {w : Word} {v : BitVec 8} (hop : opcodeOf w = 0xF) (hv : trapvect8Of w = v) :
    tableMnemonic w = tableMnemonic (fmtTrap v) := by
  apply tableMnemonic_congr (fieldMask 0 8) (by rw [hop, opcodeOf_fmtTrap])
    (agree_trapvect8_iff.mpr (hv.trans (trapvect8Of_fmtTrap v).symm))
  rw [opcodeOf_fmtTrap]
  decide

theorem tableMnemonic_jmp {r : Reg} (hr : r ≠ .r7) : tableMnemonic (fmtBase 0xC .r0 r 0) = some "JMP" := by
  cases r
  case r7 => exact absurd rfl hr
  all_goals decide

theorem tableMnemonic_unknown {v : BitVec 8} (hv : knownVector v = false) :
    tableMnemonic (fmtTrap v) = some "TRAP__unknown_vector" := by
  revert v
  decide

/-- R70: the row of a word that fits an instruction is the instruction's. -/
theorem tableMnemonic_of_fits {i : Instr} {w : Word} (hi : WellFormed i) (h : i.Fits w) :
    tableMnemonic w = some i.mnemonic := by
  obtain ⟨hop, hfields⟩ := h
  cases i <;> simp only [Instr.opcode, Instr.OperandsIn, Instr.mnemonic] at hop hfields ⊢
  case addReg | andReg =>
    obtain ⟨-, -, hbit, -⟩ := hfields
    rw [tableMnemonic_of_bit 0x000 (by omega) hop hbit (by decide)]
    decide
  case addImm | andImm =>
    obtain ⟨-, -, hbit, -⟩ := hfields
    rw [tableMnemonic_of_bit 0x020 (by omega) hop hbit (by decide)]
    decide
  case jsr =>
    obtain ⟨hbit, -⟩ := hfields
    rw [tableMnemonic_of_bit 0x800 (by omega) hop hbit (by decide)]
    decide
  case jsrr =>
    obtain ⟨hbit, -⟩ := hfields
    rw [tableMnemonic_of_bit 0x000 (by omega) hop hbit (by decide)]
    decide
  case jmp base => rw [tableMnemonic_of_base hop hfields, tableMnemonic_jmp (wellFormed_jmp_iff.mp hi)]
  case ret =>
    rw [tableMnemonic_of_base hop hfields]
    decide
  case trapUnknown v =>
    rw [tableMnemonic_of_vector hop hfields, tableMnemonic_unknown (wellFormed_trapUnknown_iff.mp hi)]
  case trapGetc | trapOut | trapPuts | trapIn | trapPutsp | trapHalt =>
    rw [tableMnemonic_of_vector hop hfields]
    decide
  case not | br | ld | ldi | ldr | lea | st | sti | str | rti | res =>
    rw [tableMnemonic_of_opcode hop (by decide)]
    decide

/-- Settles O6: the word fits the instruction it decodes to, which is well-formed. -/
theorem decodeFollowsOpcodeTable : Obligations.DecodeFollowsOpcodeTable := fun w =>
  tableMnemonic_of_fits (decodeIsWellFormed w) (fits_decode w)

end Sys2Proof
end

section
/-! The cycle from outside (R80, R81, R197): what a step of a RUNNING machine executes, and the host's run loop. -/

namespace Sys2Proof.Machine

theorem add_one_eq_ofNat (w : Word) : w + 1 = BitVec.ofNat 16 ((w.toNat + 1) % 65536) := by
  apply BitVec.eq_of_toNat_eq
  simp [BitVec.toNat_add]

/-- Settles O45: the fetch is a `MemRead`, whatever it polls. -/
theorem stepRunsDecodedInstruction : Obligations.StepRunsDecodedInstruction := by
  intro s u w hrun hread
  rw [step_running hrun, State.fetch, hread, add_one_eq_ofNat]
  rfl

theorem step_of_ended {s : State} (h : s.run.ended = true) : step s = .next s := by
  cases hrun : s.run with
  | halted => exact step_halted hrun
  | inputClosed => exact step_inputClosed hrun
  | running => simp [hrun, Run.ended] at h
  | diverged l => simp [hrun, Run.ended] at h

/-- Any number of steps leaves a stopped machine as it is (R197, log entry 8). -/
theorem core_run_of_ended {s : State} (h : s.run.ended = true) (n : Nat) : core.run n s = .next s := by
  induction n with
  | zero => rfl
  | succ n ih =>
    rw [core_run_succ, step_of_ended h]
    exact ih

/-- Settles O60, by induction on the budget: while the run lasts both take the same step, and once it has ended further steps
change nothing (`core_run_of_ended`). -/
theorem runIsRepeatedStep : Obligations.RunIsRepeatedStep := by
  intro n
  induction n with
  | zero => exact fun s => rfl
  | succ n ih =>
    intro s
    by_cases hend : s.run.ended = true
    case pos =>
      rw [runFor, if_pos hend]
      exact (core_run_of_ended hend _).symm
    case neg =>
      rw [core_run_succ, runFor, if_neg hend]
      cases step s with
      | next t => exact ih t
      | fault r => rfl
      | refused r => rfl

end Sys2Proof.Machine
end

section
/-! The operate instructions (R100 to R102). The arm of `exec` is one `writeResult` by `rfl`, so what is left to prove is that
the word written is the arithmetic value the rule names. -/

namespace Sys2Proof.Machine

theorem add_eq_ofNat (a b : Word) : a + b = BitVec.ofNat 16 ((a.toNat + b.toNat) % 65536) := by
  apply BitVec.eq_of_toNat_eq
  simp [BitVec.toNat_add]

/-- R10: `sext_16` gives the word of the field's signed value. -/
theorem sext_eq_ofInt {n : Nat} (f : BitVec n) : sext f = BitVec.ofInt 16 f.toInt := rfl

theorem not_eq_ofNat (a : Word) : ~~~a = BitVec.ofNat 16 (65535 - a.toNat) := by
  apply BitVec.eq_of_toNat_eq
  rw [BitVec.toNat_not, BitVec.toNat_ofNat]
  omega

/-- An instruction that ends in `writeResult` changes DR and COND, nothing else (R25). -/
theorem wroteResult_of_exec {i : Instr} {s : State} {dr : Reg} {v w : Word} (h : exec i s = .next (s.writeResult dr v))
    (hv : v = w) : ∃ t, exec i s = .next t ∧ WroteResult s t dr w := by
  subst hv
  exact ⟨_, h, s.writeResult_wrote dr v⟩

/-- Settles O9: the register sum is the sum of the numbers modulo 2^16, the immediate one by `add_sext`. -/
theorem addResult : Obligations.AddResult := fun _ sr1 sr2 imm5 s =>
  ⟨wroteResult_of_exec rfl (add_eq_ofNat (s.reg sr1) (s.reg sr2)),
    wroteResult_of_exec rfl (add_sext (s.reg sr1) imm5 (by decide))⟩

/-- Settles O10: the immediate is sign-extended before the AND (`sext_eq_ofInt`). -/
theorem andResult : Obligations.AndResult := fun _ sr1 _ imm5 s =>
  ⟨wroteResult_of_exec rfl rfl, wroteResult_of_exec rfl (congrArg (s.reg sr1 &&& ·) (sext_eq_ofInt imm5))⟩

/-- Settles O11: the complement is 65535 minus the word. -/
theorem notResult : Obligations.NotResult := fun _ sr s =>
  wroteResult_of_exec rfl (not_eq_ofNat (s.reg sr))

end Sys2Proof.Machine
end

section
/-! Control transfer (R110 to R114): the branch test, the targets, and the link with the return through it. -/

namespace Sys2Proof.Machine

/-! ### BR -/

/-- The letters as bits 2, 1 and 0 of the condition field (R110, D3). -/
theorem condField_eq_ofNat (n z p : Bool) :
    condField n z p = BitVec.ofNat 16 (4 * n.toNat + 2 * z.toNat + p.toNat) := by
  revert n z p
  decide

theorem taken_iff {n z p : Bool} {cond : Word} :
    taken n z p cond = true ↔ BitVec.ofNat 16 (4 * n.toNat + 2 * z.toNat + p.toNat) &&& cond ≠ 0 := by
  rw [taken, condField_eq_ofNat, bne_iff_ne]

/-! A flag meets the condition field exactly when its own letter is set (R110; D3, D5). -/

theorem taken_condNeg (n z p : Bool) : taken n z p Config.condNeg = n := by
  revert n z p
  decide

theorem taken_condZro (n z p : Bool) : taken n z p Config.condZro = z := by
  revert n z p
  decide

theorem taken_condPos (n z p : Bool) : taken n z p Config.condPos = p := by
  revert n z p
  decide

/-- R110 with a legal COND (R23): the three flags are different words, so only the letter of the one COND holds counts. -/
theorem taken_iff_of_condLegal {s : State} (hs : CondLegal s) (n z p : Bool) :
    taken n z p s.cond = true ↔
      (n = true ∧ s.cond = Config.condNeg) ∨ (z = true ∧ s.cond = Config.condZro) ∨ (p = true ∧ s.cond = Config.condPos) := by
  rcases hs with h | h | h <;> rw [h]
  · rw [taken_condPos]
    simp [Config.condPos, Config.condNeg, Config.condZro]
  · rw [taken_condZro]
    simp [Config.condPos, Config.condNeg, Config.condZro]
  · rw [taken_condNeg]
    simp [Config.condPos, Config.condNeg, Config.condZro]

/-- R110: BR writes PC, and only PC. -/
theorem exec_br (n z p : Bool) (off : BitVec 9) (s : State) :
    exec (.br n z p off) s =
      .next (s.setPc (if taken n z p s.cond = true then plusInt s.pc off.toInt else s.pc)) := by
  rw [← add_sext s.pc off (by decide)]
  show execBr n z p off s = _
  unfold execBr
  split <;> rfl

/-- Settles O12: PC by `exec_br`, with the test written in the bits of the field. -/
theorem brResult : Obligations.BrResult := fun n z p off s =>
  ⟨_, exec_br n z p off s, if_congr taken_iff rfl rfl, rfl⟩

/-- Settles O13: taken exactly on a named flag, and a legal COND is named by one of three letters. -/
theorem brTakenByFlag : Obligations.BrTakenByFlag := by
  intro n z p off s hs
  have hiff := taken_iff_of_condLegal hs n z p
  refine ⟨_, exec_br n z p off s, fun h => if_pos (hiff.mpr h), fun h => if_neg (mt hiff.mp h), ?_, ?_⟩
  · rintro ⟨rfl, rfl, rfl⟩
    refine if_pos (hiff.mpr ?_)
    rcases hs with h | h | h
    · exact .inr (.inr ⟨rfl, h⟩)
    · exact .inr (.inl ⟨rfl, h⟩)
    · exact .inl ⟨rfl, h⟩
  · rintro ⟨rfl, rfl, rfl⟩
    exact if_neg fun h => by simpa using hiff.mp h

/-! ### JMP and RET -/

theorem exec_jmp (base : Reg) (s : State) : exec (.jmp base) s = .next { s with pc := s.reg base } := rfl

theorem exec_ret (s : State) : exec .ret s = .next { s with pc := s.reg .r7 } := rfl

/-- Settles O14: both jumps write PC alone. -/
theorem jmpRetResult : Obligations.JmpRetResult := fun base s => ⟨exec_jmp base s, exec_ret s⟩

/-! ### JSR and JSRR -/

/-- The link of JSR and JSRR is the one a trap saves (R112, R113, R150). -/
theorem State.link_linked (s : State) : Linked s s.link := s.enterTrap_linked

/-- Settles O15: the link is kept by the jump, the target is a sum by `add_sext`. -/
theorem jsrResult : Obligations.JsrResult := fun off s =>
  ⟨_, rfl, s.link_linked, add_sext s.pc off (by decide), fun _ => rfl, rfl⟩

/-- R113: JSRR links and jumps; the parameter decides in which state the base is read (D8). -/
theorem exec_jsrr (base : Reg) (s : State) :
    exec (.jsrr base) s =
      .next (s.link.setPc (if s.params.jsrrReadBaseFirst = true then s.reg base else s.link.reg base)) := by
  show execJsrr base s = _
  unfold execJsrr
  split <;> rfl

/-- Settles O16: a base other than R7 reads the same before and after the link. -/
theorem jsrrResult : Obligations.JsrrResult := by
  intro base s
  obtain ⟨hlink, hkeep⟩ := s.link_linked
  refine ⟨_, exec_jsrr base s, s.link_linked, ?_, ?_, ?_, fun _ => rfl, rfl⟩
  · intro hne
    rw [State.pc_setPc, hkeep base hne, ite_self]
  · rintro rfl hparam
    rw [State.pc_setPc, hparam, if_neg Bool.false_ne_true, hlink]
  · rintro rfl hparam
    rw [State.pc_setPc, if_pos hparam]

/-! ### The link -/

/-- R114: JSR, JSRR and TRAP leave the incremented PC in R7; no routine of R151 writes it again. -/
theorem exec_link {i : Instr} {s t : State} (h : exec i s = .next t) (hi : linking i = true) : t.reg .r7 = s.pc := by
  cases i <;> obtain rfl := next_inj h
  case jsr => rfl
  case jsrr => split <;> rfl
  case trapGetc | trapIn => simp [State.reg_readChar_of_ne]
  case trapOut | trapPuts | trapPutsp | trapHalt | trapUnknown => simp
  all_goals cases hi

/-- Settles O17: RET goes to R7, which holds the link. -/
theorem linkThenRetReturns : Obligations.LinkThenRetReturns := by
  intro i s t hi h
  rw [exec_ret, exec_link h hi]

end Sys2Proof.Machine
end

section
/-! Loads, LEA and stores (R120 to R127): the signed effective address, and that each arm of `exec` is one load, one result
or one stored word, in the state the pointer read left where there is one. -/

namespace Sys2Proof.Machine

/-! ### Effective addresses -/

/-- R127: the PC-relative address as a signed sum modulo 2^16. -/
theorem State.eaPc_eq_plusInt (s : State) (off : BitVec 9) : s.eaPc off = plusInt s.pc off.toInt :=
  add_sext s.pc off (by decide)

/-- R127: the base-relative address as a signed sum modulo 2^16. -/
theorem State.eaBase_eq_plusInt (s : State) (base : Reg) (off : BitVec 6) :
    s.eaBase base off = plusInt (s.reg base) off.toInt :=
  add_sext (s.reg base) off (by decide)

/-! ### Loads and LEA -/

/-- A load writes the word its `MemRead` gives, in the state that read left, so the polled cells and the input are the read's. -/
theorem State.loadFrom_wrote (s : State) (dr : Reg) (ea : Word) :
    WroteResult (s.memRead ea).2 (s.loadFrom dr ea) dr (s.memRead ea).1 :=
  (s.memRead ea).2.writeResult_wrote dr (s.memRead ea).1

/-- R121: the data read is in the state the pointer read left. -/
theorem exec_ldi_of_memRead {s u : State} {off : BitVec 9} {p : Word} (dr : Reg) (h : s.memRead (s.eaPc off) = (p, u)) :
    exec (.ldi dr off) s = .next (u.loadFrom dr p) := by
  show execLdi dr off s = _
  rw [execLdi, State.eaIndirect, h]

/-- Settles O18: one load at the PC-relative address. -/
theorem ldResult : Obligations.LdResult := fun dr off s =>
  ⟨s.eaPc_eq_plusInt off, _, rfl, s.loadFrom_wrote dr (s.eaPc off)⟩

/-- Settles O19: one load at the pointer, in the state the pointer read left. -/
theorem ldiResult : Obligations.LdiResult := fun dr off s =>
  ⟨s.eaPc_eq_plusInt off, fun p u h => ⟨_, exec_ldi_of_memRead dr h, u.loadFrom_wrote dr p⟩⟩

/-- Settles O20: one load at the base-relative address, which is computed before DR is written. -/
theorem ldrResult : Obligations.LdrResult := fun dr base off s =>
  ⟨s.eaBase_eq_plusInt base off, _, rfl, s.loadFrom_wrote dr (s.eaBase base off)⟩

/-- Settles O21: the result is the address, and no read is made. -/
theorem leaResult : Obligations.LeaResult := fun _ off s => wroteResult_of_exec rfl (s.eaPc_eq_plusInt off)

/-! ### Stores -/

/-- R125: the word is stored at the pointer, in the state the pointer read left; that read changes no register, SR included. -/
theorem exec_sti_of_memRead {s u : State} {off : BitVec 9} {p : Word} (sr : Reg) (h : s.memRead (s.eaPc off) = (p, u)) :
    exec (.sti sr off) s = .next (u.memWrite p (s.reg sr)) := by
  have hsr : u.reg sr = s.reg sr := by
    rw [← s.reg_afterRead (s.eaPc off) sr, ← s.memRead_snd, h]
  show execSti sr off s = _
  rw [execSti, State.eaIndirect, h, hsr]

/-- Settles O23: one word at the PC-relative address; a write never polls. -/
theorem stResult : Obligations.StResult := fun sr off s =>
  ⟨s.eaPc_eq_plusInt off, _, rfl, s.memWrite_wrote (s.eaPc off) (s.reg sr)⟩

/-- Settles O24: one word at the pointer, beside what the pointer read did. -/
theorem stiResult : Obligations.StiResult := fun sr off s =>
  ⟨s.eaPc_eq_plusInt off, fun p u h => ⟨_, exec_sti_of_memRead sr h, u.memWrite_wrote p (s.reg sr)⟩⟩

/-- Settles O25: one word at the base-relative address; both registers are read before the write. -/
theorem strResult : Obligations.StrResult := fun sr base off s =>
  ⟨s.eaBase_eq_plusInt base off, _, rfl, s.memWrite_wrote (s.eaBase base off) (s.reg sr)⟩

end Sys2Proof.Machine
end

section
/-! The reserved opcodes and the final run states (R140 to R142, R197). RTI and RES write the run state alone, and the two run
states that have ended are the ones `core_run_of_ended` is about. -/

namespace Sys2Proof.Machine

/-- R142, R197: `run()` has returned exactly in HALTED and INPUT_CLOSED. -/
theorem Run.ended_iff {r : Run} : r.ended = true ↔ r = .halted ∨ r = .inputClosed := by
  cases r <;> simp [Run.ended]

/-- Settles O46: both run states have ended, and `core_run_of_ended` is the induction on the number of steps. -/
theorem stoppedMachineStays : Obligations.StoppedMachineStays := fun n _ h =>
  core_run_of_ended (Run.ended_iff.mpr h) n

theorem exec_rti (s : State) : exec .rti s = .next { s with run := .halted } := rfl

theorem exec_res (s : State) : exec .res s = .next { s with run := .halted } := rfl

/-- Settles O27: both reserved opcodes write the run state alone. -/
theorem rtiResHalt : Obligations.RtiResHalt := fun s => ⟨exec_rti s, exec_res s⟩

end Sys2Proof.Machine
end

section
/-! TRAP and the routines that read no memory (R150 to R154, R156, R158, R159, R163). Every routine leaves what `trapSavesPc` says
of R7, PC and R1 to R6; beside it each proof names what the routine itself writes. -/

namespace Sys2Proof.Machine

/-! ### Every TRAP row -/

theorem linking_of_trapping {i : Instr} (h : trapping i = true) : linking i = true := by
  cases i
  case jsr | jsrr => rfl
  all_goals exact h

theorem transferring_of_trapping {i : Instr} (h : trapping i = true) : transferring i = false := by
  cases i
  case trapGetc | trapIn | trapOut | trapPuts | trapPutsp | trapHalt | trapUnknown => rfl
  all_goals cases h

/-- R21: beside the link a TRAP writes R0 at most. -/
theorem not_mem_writers_of_trapping {i : Instr} {r : Reg} (h : trapping i = true) (h0 : r ≠ .r0) (h7 : r ≠ .r7) :
    r ∉ writers i := by
  cases i
  case trapGetc | trapIn | trapOut | trapPuts | trapPutsp | trapHalt | trapUnknown => simp [writers, h0, h7]
  all_goals cases h

/-- Settles O36: the link, PC and the registers outside `writers`, each a fact about all instructions. -/
theorem trapSavesPc : Obligations.TrapSavesPc := fun _ _ _ htrap h =>
  ⟨exec_link h (linking_of_trapping htrap), exec_pc h (transferring_of_trapping htrap),
    fun _ h0 h7 => exec_reg h (not_mem_writers_of_trapping htrap h0 h7)⟩

/-- R150: a TRAP that writes no register but the link. -/
theorem exec_linked {i : Instr} {s t : State} (h : exec i s = .next t) (hlink : linking i = true) (hw : writers i = [.r7]) :
    Linked s t :=
  ⟨exec_link h hlink, fun r hr => exec_reg h (by simpa [hw] using hr)⟩

/-! ### OUT, HALT and the vectors without a routine -/

theorem exec_trapOut (s : State) :
    exec .trapOut s = .next (s.enterTrap.outWrites [BitVec.ofNat 8 ((s.reg .r0).toNat % 256)]) := by
  rw [← lowByte_eq]
  rfl

/-- Settles O31: one byte is appended to the output of the entered TRAP. -/
theorem outResult : Obligations.OutResult := fun s =>
  ⟨_, exec_trapOut s, rfl, exec_linked (exec_trapOut s) rfl rfl, fun _ => rfl, rfl⟩

theorem exec_trapHalt (s : State) : exec .trapHalt s = .next ((s.enterTrap.outWrites s.params.haltMessage).setRun .halted) :=
  rfl

/-- Settles O34: the message is appended, then the run state is HALTED. -/
theorem haltResult : Obligations.HaltResult := fun s =>
  ⟨_, exec_trapHalt s, rfl, rfl, exec_linked (exec_trapHalt s) rfl rfl, fun _ => rfl, rfl⟩

theorem exec_trapUnknown (v : BitVec 8) (s : State) : exec (.trapUnknown v) s = .next s.enterTrap := rfl

/-- Settles O35: the entry is all that happens. -/
theorem unknownVectorResult : Obligations.UnknownVectorResult := fun v s =>
  ⟨_, exec_trapUnknown v s, s.enterTrap_linked, s.rawRead_enterTrap, rfl⟩

/-! ### GETC and IN -/

theorem exec_trapGetc (s : State) : exec .trapGetc s = .next (s.enterTrap.readChar fun _ => []) := rfl

theorem exec_trapIn (s : State) :
    exec .trapIn s = .next ((s.enterTrap.outWrites s.params.inPrompt).readChar fun b => [b]) := rfl

/-- Settles O28: `InRead` with a byte and no echo (`State.readChar_of_byte`). -/
theorem getcResult : Obligations.GetcResult := by
  intro s b hans
  obtain ⟨hr0, hcond, -, hframe⟩ := State.readChar_of_byte (s := s.enterTrap) (fun _ => []) hans
  obtain ⟨hr7, -, hreg⟩ := trapSavesPc .trapGetc s _ rfl (exec_trapGetc s)
  refine ⟨_, exec_trapGetc s, hr0, hcond, hr7, hreg, fun a => by simp, hframe.trans ?_⟩
  rw [List.append_nil]
  rfl

/-- Settles O29: `InRead` with a byte and its echo, after the prompt. -/
theorem inResult : Obligations.InResult := by
  intro s b hans
  obtain ⟨hr0, hcond, -, hframe⟩ :=
    State.readChar_of_byte (s := s.enterTrap.outWrites s.params.inPrompt) (fun b => [b]) hans
  obtain ⟨hr7, -, hreg⟩ := trapSavesPc .trapIn s _ rfl (exec_trapIn s)
  have hout := congrArg State.out hframe
  refine ⟨_, exec_trapIn s, hout, hr0, hcond, hr7, hreg, fun a => by simp, hframe.trans ?_⟩
  rw [hout]
  rfl

/-- Settles O30: `InRead` answered `Closed` (`State.readChar_of_closed`); what was written before it is nothing for GETC and the
prompt for IN. -/
theorem inputClosedResult : Obligations.InputClosedResult := by
  intro i s hi hans
  rcases hi with rfl | rfl
  case inl =>
    obtain ⟨hrun, hcond, -, hpc, -, hout, hparams⟩ := State.readChar_of_closed (s := s.enterTrap) (fun _ => []) hans
    obtain ⟨hr7, -, hreg⟩ := trapSavesPc .trapGetc s _ rfl (exec_trapGetc s)
    exact ⟨_, exec_trapGetc s, hrun, hcond, hr7, hreg, fun a => by simp, hpc, hparams, fun _ => hout, nofun⟩
  case inr =>
    obtain ⟨hrun, hcond, -, hpc, -, hout, hparams⟩ :=
      State.readChar_of_closed (s := s.enterTrap.outWrites s.params.inPrompt) (fun b => [b]) hans
    obtain ⟨hr7, -, hreg⟩ := trapSavesPc .trapIn s _ rfl (exec_trapIn s)
    exact ⟨_, exec_trapIn s, hrun, hcond, hr7, hreg, fun a => by simp, hpc, hparams, nofun, fun _ => hout⟩

/-- Settles O42: zero extension keeps the unsigned value, sign extension the signed one (`toInt_sext`). -/
theorem inputByteExtension : Obligations.InputByteExtension := by
  refine fun p b => ⟨fun hzero => ?_, fun hsign => ?_⟩
  · rw [extIn, hzero]
    exact BitVec.toNat_setWidth_of_le (by decide)
  · rw [extIn, hsign]
    exact toInt_sext b (by decide)

end Sys2Proof.Machine
end

section
/-! The string routines from outside (R155, R157, R160 to R162): `State.stringTrap_cases` for a routine entered by its TRAP, and
the endless output of a DIVERGED machine as the bytes of its next reads. -/

namespace Sys2Proof.Machine

/-! ### The string of a machine -/

/-- The first zero read ends the string, so it has one length. -/
theorem StringOf.length_unique {s : State} {m n : Nat} (hm : StringOf s m) (hn : StringOf s n) : m = n := by
  obtain ⟨hmlt, hmz⟩ := hm
  obtain ⟨hnlt, hnz⟩ := hn
  rcases Nat.lt_trichotomy m n with h | h | h
  · exact absurd hmz (hnlt m h)
  · exact h
  · exact absurd hnz (hmlt n h)

theorem StringOf.not_endless {s : State} {n : Nat} (h : StringOf s n) : ¬ ∀ i, stringWord s i ≠ 0 := fun hall => hall n h.2

/-- With plain reads a zero word anywhere in memory is read at last, as the pointer wraps (R161). -/
theorem exists_stringWord_zero_iff_of_raw {s : State} (hplain : s.params.trapStringReadsPoll = false) :
    (∃ n, stringWord s n = 0) ↔ ∃ a : Word, s.rawRead a = 0 := by
  have hword : ∀ n, stringWord s n = s.rawRead (s.reg .r0 + BitVec.ofNat 16 n) := fun n => State.stringRead_of_raw _ n hplain
  constructor
  · rintro ⟨n, hn⟩
    exact ⟨_, (hword n).symm.trans hn⟩
  · rintro ⟨a, ha⟩
    obtain ⟨n, -, hna⟩ := exists_offset (s.reg .r0) a
    exact ⟨n, by rw [hword, hna, ha]⟩

/-- What PUTS writes for a word (R155, D11). -/
theorem stringBytes_puts (w : Word) : stringBytes .puts w = [BitVec.ofNat 8 (w.toNat % 256)] := by
  rw [stringBytes, lowByte_eq]

theorem stringRun_puts (s : State) (a : Word) (n : Nat) :
    stringRun .puts s a n = (List.range n).map fun i => BitVec.ofNat 8 ((s.stringRead a i).toNat % 256) := by
  simp only [stringRun, stringBytes_puts]
  exact List.flatMap_pure_eq_map _ _

theorem stringRun_putsp (s : State) (a : Word) (n : Nat) :
    stringRun .putsp s a n = (List.range n).flatMap fun i => putspBytes (s.stringRead a i) := by
  simp only [stringRun, stringBytes_putsp]

theorem stringRun_zero (k : StringKind) (s : State) (a : Word) : stringRun k s a 0 = [] := rfl

theorem stringRun_setRun (k : StringKind) (s : State) (r : Run) (a : Word) (n : Nat) :
    stringRun k (s.setRun r) a n = stringRun k s a n := by simp only [stringRun, State.stringRead_setRun]

theorem State.outWrites_nil (s : State) : s.outWrites [] = s := by rw [State.outWrites, List.append_nil]

/-! ### The entry of the TRAP is no read -/

theorem stringWord_enterTrap (s : State) (i : Nat) : stringWord s.enterTrap i = stringWord s i :=
  State.stringRead_setReg s .r7 s.pc (s.reg .r0) i

theorem State.afterReads_enterTrap (s : State) (n : Nat) (a : Word) :
    s.enterTrap.afterReads n a = (s.afterReads n a).enterTrap := by
  rw [State.enterTrap, State.afterReads_setReg, State.enterTrap, State.pc_afterReads]

theorem stringRun_enterTrap (k : StringKind) (s : State) (a : Word) (n : Nat) :
    stringRun k s.enterTrap a n = stringRun k s a n := by
  simp only [stringRun, State.enterTrap, State.stringRead_setReg]

/-! ### PUTS and PUTSP -/

theorem exec_trapPuts (s : State) : exec .trapPuts s = .next (s.enterTrap.stringTrap .puts) := rfl

theorem exec_trapPutsp (s : State) : exec .trapPutsp s = .next (s.enterTrap.stringTrap .putsp) := rfl

theorem exec_stringTrap {i : Instr} (hi : i = .trapPuts ∨ i = .trapPutsp) (s : State) :
    ∃ k, exec i s = .next (s.enterTrap.stringTrap k) ∧ linking i = true ∧ writers i = [.r7] := by
  rcases hi with rfl | rfl
  · exact ⟨.puts, exec_trapPuts s, rfl, rfl⟩
  · exact ⟨.putsp, exec_trapPutsp s, rfl, rfl⟩

theorem exists_next_iff {i : Instr} {s t : State} {P : State → Prop} (h : exec i s = .next t) :
    (∃ u, exec i s = .next u ∧ P u) ↔ P t := by
  constructor
  · rintro ⟨u, hu, hP⟩
    obtain rfl := next_inj (h.symm.trans hu)
    exact hP
  · exact fun hP => ⟨t, h, hP⟩

/-- `State.stringTrap_cases` after the entry of the TRAP, in terms of the string of the machine before it. -/
theorem State.enterTrap_stringTrap_cases (s : State) (k : StringKind) :
    (∃ n, StringOf s n ∧ s.enterTrap.stringTrap k =
      (s.afterReads (n + 1) (s.reg .r0)).enterTrap.outWrites (stringRun k s (s.reg .r0) n)) ∨
    ((∀ i, stringWord s i ≠ 0) ∧ s.enterTrap.stringTrap k =
      ((s.afterReads (65536 * s.passes) (s.reg .r0)).enterTrap.outWrites
        (stringRun k s (s.reg .r0) (65536 * s.passes))).setRun (.diverged ⟨k, s.reg .r0⟩)) := by
  have hreg : s.enterTrap.reg .r0 = s.reg .r0 := rfl
  have hpasses : s.enterTrap.passes = s.passes := rfl
  have hcases := s.enterTrap.stringTrap_cases k
  simp only [hreg, hpasses, stringWord_enterTrap, State.afterReads_enterTrap, stringRun_enterTrap] at hcases
  rcases hcases with ⟨n, hnonzero, hzero, heq⟩ | hendless
  · exact .inl ⟨n, ⟨hnonzero, hzero⟩, heq⟩
  · exact .inr hendless

/-- R155, R157: a string that ends. -/
theorem State.enterTrap_stringTrap_of_ends {s : State} {n : Nat} (k : StringKind) (h : StringOf s n) :
    s.enterTrap.stringTrap k =
      (s.afterReads (n + 1) (s.reg .r0)).enterTrap.outWrites (stringRun k s (s.reg .r0) n) := by
  rcases s.enterTrap_stringTrap_cases k with ⟨m, hm, heq⟩ | ⟨hall, -⟩
  · obtain rfl := h.length_unique hm
    exact heq
  · exact absurd hall h.not_endless

/-- R162: a string that does not. -/
theorem State.enterTrap_stringTrap_of_endless {s : State} (k : StringKind) (h : ∀ i, stringWord s i ≠ 0) :
    s.enterTrap.stringTrap k =
      ((s.afterReads (65536 * s.passes) (s.reg .r0)).enterTrap.outWrites
        (stringRun k s (s.reg .r0) (65536 * s.passes))).setRun (.diverged ⟨k, s.reg .r0⟩) := by
  rcases s.enterTrap_stringTrap_cases k with ⟨m, hm, -⟩ | ⟨-, heq⟩
  · exact absurd h hm.not_endless
  · exact heq

theorem State.run_stringTrap_of_ends {s : State} {n : Nat} (k : StringKind) (h : StringOf s n) :
    (s.enterTrap.stringTrap k).run = s.run := by
  rw [State.enterTrap_stringTrap_of_ends k h]
  simp

theorem State.run_stringTrap_of_endless {s : State} (k : StringKind) (h : ∀ i, stringWord s i ≠ 0) :
    (s.enterTrap.stringTrap k).run = .diverged ⟨k, s.reg .r0⟩ := by
  rw [State.enterTrap_stringTrap_of_endless k h]
  rfl

/-! ### A string that ends -/

/-- What a string routine does with a string of `n` words, PUTS and PUTSP alike: their bytes, the link, and the reads. -/
theorem exec_string_of_ends {i : Instr} {k : StringKind} {s : State} {n : Nat}
    (hexec : exec i s = .next (s.enterTrap.stringTrap k)) (hlink : linking i = true) (hw : writers i = [.r7])
    (h : StringOf s n) : ∃ t, exec i s = .next t ∧ t.out = s.out ++ stringRun k s (s.reg .r0) n ∧ Linked s t ∧
      t = { s.afterReads (n + 1) (s.reg .r0) with regs := t.regs, out := t.out } ∧
      (∀ a, a ≠ s.params.kbsrAddr → a ≠ s.params.kbdrAddr → t.rawRead a = s.rawRead a) ∧
      (s.params.trapStringReadsPoll = false → t = { s with regs := t.regs, out := t.out }) := by
  have hlinked := exec_linked hexec hlink hw
  have hmem := fun a hk hd => State.rawRead_stringTrap (s := s.enterTrap) (a := a) hk hd k
  rw [State.enterTrap_stringTrap_of_ends k h] at hexec hlinked hmem
  refine ⟨_, hexec, by simp, hlinked, rfl, hmem, fun hplain => ?_⟩
  rw [State.afterReads_of_raw _ _ hplain]
  rfl

/-- Settles O32, by `exec_string_of_ends`: the bytes of the string are the low bytes of its words. -/
theorem putsResult : Obligations.PutsResult := by
  intro s n h
  have hputs := exec_string_of_ends (exec_trapPuts s) rfl rfl h
  rwa [stringRun_puts] at hputs

/-- Settles O33, by `exec_string_of_ends`: the bytes of the string are the non-zero bytes of its words. -/
theorem putspResult : Obligations.PutspResult := by
  intro s n h
  have hputsp := exec_string_of_ends (exec_trapPutsp s) rfl rfl h
  rwa [stringRun_putsp] at hputsp

/-! ### A string that does not end -/

/-- What a string routine does with an endless string, PUTS and PUTSP alike (R162, log entry 6). -/
theorem exec_string_of_endless {i : Instr} {k : StringKind} {s : State}
    (hexec : exec i s = .next (s.enterTrap.stringTrap k)) (hlink : linking i = true) (hw : writers i = [.r7])
    (h : ∀ i, stringWord s i ≠ 0) : ∃ t, exec i s = .next t ∧ t.run = .diverged ⟨k, s.reg .r0⟩ ∧
      t.out = s.out ++ stringRun k s (s.reg .r0) (65536 * s.passes) ∧ Linked s t ∧
      t = { s.afterReads (65536 * s.passes) (s.reg .r0) with regs := t.regs, out := t.out, run := t.run } := by
  have hlinked := exec_linked hexec hlink hw
  rw [State.enterTrap_stringTrap_of_endless k h] at hexec hlinked
  exact ⟨_, hexec, rfl, by simp, hlinked, rfl⟩

/-- Settles O37: both routines by `exec_string_of_endless`; plain reads change nothing. -/
theorem endlessStringDiverges : Obligations.EndlessStringDiverges := by
  intro s h
  refine ⟨?puts, ?putsp, fun hplain => ⟨by simp [State.passes, hplain], State.afterReads_of_raw _ _ hplain⟩⟩
  case puts =>
    have hputs := exec_string_of_endless (exec_trapPuts s) rfl rfl h
    rwa [stringRun_puts] at hputs
  case putsp =>
    have hputsp := exec_string_of_endless (exec_trapPutsp s) rfl rfl h
    rwa [stringRun_putsp] at hputsp

/-- Settles O38: the two cases of `State.enterTrap_stringTrap_cases` exclude each other, and so do the two run
states they leave. -/
theorem stringCompletesIffTerminated : Obligations.StringCompletesIffTerminated := by
  intro i s hi hrun
  obtain ⟨k, hexec, -, -⟩ := exec_stringTrap hi s
  refine ⟨?completes, ?diverges, exists_stringWord_zero_iff_of_raw⟩
  case completes =>
    rw [exists_next_iff hexec]
    rcases s.enterTrap_stringTrap_cases k with ⟨n, hends, -⟩ | ⟨hendless, -⟩
    · exact iff_of_true ((State.run_stringTrap_of_ends k hends).trans hrun) ⟨n, hends.2⟩
    · exact iff_of_false (by simp [State.run_stringTrap_of_endless k hendless]) (fun ⟨n, hn⟩ => hendless n hn)
  case diverges =>
    simp only [exists_and_left]
    rw [exists_next_iff hexec]
    rcases s.enterTrap_stringTrap_cases k with ⟨n, hends, -⟩ | ⟨hendless, -⟩
    · exact iff_of_false (by simp [State.run_stringTrap_of_ends k hends, hrun]) hends.not_endless
    · exact iff_of_true ⟨_, State.run_stringTrap_of_endless k hendless⟩ hendless

/-! ### Polling strings -/

/-- A listed 'no byte' is polled in its own pass, and that pass or the next one reads a zero word (R160, R162). -/
theorem not_endless_of_listed {s : State} (hpoll : s.params.trapStringReadsPoll = true)
    (hnone : none ∈ s.input.listed) : ¬ ∀ i, stringWord s i ≠ 0 := by
  intro hall
  obtain ⟨j, hj⟩ := List.mem_iff_getElem?.mp hnone
  have hpass : ∀ q, q < j + 2 → (State.refreshKeyboard^[q] s).NonzeroPass (s.reg .r0) := fun q hq =>
    State.nonzeroPass_of_passes hpoll (fun i _ => hall i) hq
  exact State.not_nonzero_of_listed hpoll hj (.inl rfl) (hpass j (by omega)) (hpass (j + 1) (by omega))

/-- Settles O41: the string is not endless, so it ends. -/
theorem pollingStringEndsOnceNoByte : Obligations.PollingStringEndsOnceNoByte := by
  intro i s hi hpoll hnone
  obtain ⟨k, hexec, -, -⟩ := exec_stringTrap hi s
  rcases s.enterTrap_stringTrap_cases k with ⟨n, hends, -⟩ | ⟨hendless, -⟩
  · exact ⟨_, n, hends, hexec, State.run_stringTrap_of_ends k hends⟩
  · exact absurd hendless (not_endless_of_listed hpoll hnone)

/-- R43: a poll without a byte writes zero to the status cell and nothing else. -/
theorem State.refreshKeyboard_of_none {s : State} (h : s.answer = none) :
    s.refreshKeyboard = s.consume.memWrite s.params.kbsrAddr 0 := by
  simp only [State.refreshKeyboard, h]

/-- Settles O40: the string has no word, as its first read is a poll without a byte. -/
theorem pollingStringEndsAtEmptyPoll : Obligations.PollingStringEndsAtEmptyPoll := by
  intro i s hi hpoll hr0 hnone
  obtain ⟨k, hexec, hlink, hw⟩ := exec_stringTrap hi s
  have hread : s.strRead (s.reg .r0) = (0, s.consume.memWrite s.params.kbsrAddr 0) := by
    rw [State.strRead_poll _ hpoll, hr0, State.memRead_kbsr, State.refreshKeyboard_of_none hnone]
    simp
  have hends : StringOf s 0 := ⟨nofun, by rw [stringWord, State.stringRead_zero, hread]⟩
  have hlinked := exec_linked hexec hlink hw
  have hnext : s.enterTrap.stringTrap k = (s.consume.memWrite s.params.kbsrAddr 0).enterTrap := by
    rw [State.enterTrap_stringTrap_of_ends k hends, stringRun_zero, State.outWrites_nil, State.afterReads, hread,
      State.afterReads]
  rw [hnext] at hexec hlinked
  exact ⟨_, hexec, hlinked, by simp, fun a ha => by simp [ha], rfl⟩

/-! ### DIVERGED -/

/-- R162: `n` steps of a DIVERGED machine are `n` reads, and the bytes they give. -/
theorem core_run_of_diverged {k : StringKind} : ∀ (n : Nat) {s : State} {a : Word}, s.run = .diverged ⟨k, a⟩ →
    core.run n s = .next (((s.afterReads n a).outWrites (stringRun k s a n)).setRun (.diverged ⟨k, a + BitVec.ofNat 16 n⟩))
  | 0, s, a, h => by
    rw [stringRun_zero, State.outWrites_nil, BitVec.add_zero, ← h]
    rfl
  | n + 1, s, a, h => by
    rw [core_run_succ, step_diverged h]
    refine (core_run_of_diverged n (s.run_divergedStep ⟨k, a⟩)).trans ?_
    rw [State.divergedStep, State.afterReads_setRun, State.afterReads_outWrites, stringRun_setRun, stringRun_outWrites,
      stringRun_succ, ← State.outWrites_outWrites, ofNat_succ_add]
    rfl

/-- Settles O39, by `core_run_of_diverged`; `stringBytes` is the statement's own case split. -/
theorem divergedForever : Obligations.DivergedForever := by
  intro n s ⟨k, a⟩ h
  refine ⟨(core_run_of_diverged n h).trans ?_, fun hplain =>
    ⟨State.afterReads_of_raw n a hplain, fun i => State.stringRead_of_raw a i hplain⟩⟩
  rw [State.outWrites, State.out_afterReads]
  cases k
  case puts =>
    simp only [stringRun, stringBytes_puts]
    rfl
  case putsp =>
    simp only [stringRun, stringBytes_putsp]
    rfl

end Sys2Proof.Machine
end

section
/-! Exceptional conditions (R170, R173, R194): no instruction and no step stops the machine, and the one error of the block is a
malformed image, which ends that load alone. -/

namespace Sys2Proof.Machine

/-! ### Steps -/

/-- R83: the arm of every instruction is a next state by definition. -/
theorem exists_exec_next (i : Instr) (s : State) : ∃ t, exec i s = .next t := by
  cases i <;> exact ⟨_, rfl⟩

/-- Settles O47, by run state: a fetched instruction in RUNNING, one more read in DIVERGED, the identity when stopped. -/
theorem everyStepHasNextState : Obligations.EveryStepHasNextState := by
  refine ⟨fun s => ?_, exists_exec_next⟩
  cases hrun : s.run with
  | running =>
    rw [step_running hrun]
    exact exists_exec_next _ _
  | diverged l => exact ⟨_, step_diverged hrun⟩
  | halted => exact ⟨s, step_halted hrun⟩
  | inputClosed => exact ⟨s, step_inputClosed hrun⟩

/-! ### Images -/

theorem wordsOf_eq_nil {bytes : List Byte} (h : bytes.length < 2) : wordsOf bytes = [] := by
  apply List.eq_nil_of_length_eq_zero
  rw [wordsOf_length]
  omega

/-- R194: a stream without an origin word is an error, whether it ends there or fails there. -/
theorem load_of_length_lt {bytes : List Byte} (fails : Bool) (s : State) (h : bytes.length < 2) :
    load ⟨bytes, fails⟩ s = (.loadError, s) := by
  unfold load
  rw [wordsOf_eq_nil h]

/-- R193: the capacity by the two bytes of the origin. -/
theorem capacity_bigEndian (hi lo : Byte) : capacity (hi ++ lo) = 65536 - (256 * hi.toNat + lo.toNat) := by
  rw [capacity, toNat_bigEndian]
  rfl

/-- R194, D20: a read failure is met exactly when words are still missing to the capacity, and what is written is what the
stream would have written without it. -/
theorem load_readFails (hi lo : Byte) (rest : List Byte) (s : State) :
    load ⟨hi :: lo :: rest, true⟩ s =
      if rest.length / 2 < capacity (hi ++ lo) then (.loadError, (load ⟨hi :: lo :: rest, false⟩ s).2)
      else load ⟨hi :: lo :: rest, false⟩ s := by
  simp only [load, wordsOf, wordsOf_length, Bool.true_and, Bool.false_and, decide_eq_true_eq, Bool.false_eq_true, if_false]

/-- Settles O57: a stream without an origin word, then the two cases of `load_readFails`. -/
theorem loadErrors : Obligations.LoadErrors := by
  refine ⟨fun _ fails s h => load_of_length_lt fails s h, fun hi lo rest s h => ?_, fun hi lo rest s h => ?_⟩
  · rw [← capacity_bigEndian] at h
    rw [load_readFails, if_pos h]
  · rw [← capacity_bigEndian] at h
    rw [load_readFails, if_neg (Nat.not_lt.mpr h)]

end Sys2Proof.Machine
end

section
/-! The session from the host (R191, R193, R195, R196): which words a readable image puts where, and that these words depend on
its bytes alone. -/

namespace Sys2Proof.Machine

/-! ### One image -/

/-- R193: the words of an image that its origin leaves room for. -/
def imageWords (origin : Word) (rest : List Byte) : List Word := (wordsOf rest).take (capacity origin)

theorem imageWords_length (origin : Word) (rest : List Byte) :
    (imageWords origin rest).length = min (rest.length / 2) (capacity origin) := by
  rw [imageWords, List.length_take, wordsOf_length, Nat.min_comm]

/-- R193: a load never wraps. -/
theorem toNat_add_imageWords_length_le (origin : Word) (rest : List Byte) :
    origin.toNat + (imageWords origin rest).length ≤ 65536 := by
  have horigin := origin.isLt
  rw [imageWords_length, capacity, Config.memWords]
  omega

theorem imageWords_getElem (origin : Word) (rest : List Byte) (i : Nat) (h : i < (imageWords origin rest).length) :
    (imageWords origin rest)[i] = (rest.getD (2 * i) 0 ++ rest.getD (2 * i + 1) 0 : BitVec 16) :=
  List.getElem_take.trans (wordsOf_getElem rest i (h.trans_le (List.length_take_le' _ _)))

/-- R193: a readable stream with an origin is written by `Memory.setWords` and is no error. -/
theorem load_readable (hi lo : Byte) (rest : List Byte) (s : State) :
    load ⟨hi :: lo :: rest, false⟩ s =
      (.loaded (hi ++ lo) (imageWords (hi ++ lo) rest).length,
        { s with mem := s.mem.setWords (hi ++ lo) (imageWords (hi ++ lo) rest) }) := rfl

/-- R191, R193: a word of the image, whatever stood at its address before. -/
theorem rawRead_load {hi lo : Byte} {rest : List Byte} {i : Nat} (h : i < (imageWords (hi ++ lo) rest).length) (s : State) :
    (load ⟨hi :: lo :: rest, false⟩ s).2.rawRead (hi ++ lo + BitVec.ofNat 16 i) =
      (rest.getD (2 * i) 0 ++ rest.getD (2 * i + 1) 0 : BitVec 16) :=
  (Memory.word_setWords _ s.mem _ i (toNat_add_imageWords_length_le _ rest) h).trans (imageWords_getElem _ rest i h)

/-- R193: an address outside the range of the words keeps its word. -/
theorem rawRead_load_outside {hi lo : Byte} {rest : List Byte} {a : Word} (s : State)
    (h : a.toNat < (hi ++ lo : Word).toNat ∨ (hi ++ lo : Word).toNat + (imageWords (hi ++ lo) rest).length ≤ a.toNat) :
    (load ⟨hi :: lo :: rest, false⟩ s).2.rawRead a = s.rawRead a :=
  Memory.word_setWords_of_below _ s.mem _ a (toNat_add_imageWords_length_le _ rest) h

/-- Settles O56: the words by `rawRead_load`, the other addresses by `rawRead_load_outside`. -/
theorem loadWritesImage : Obligations.LoadWritesImage := by
  intro hi lo rest s t res origin n hload horigin hn
  rw [← toNat_bigEndian] at horigin
  subst horigin
  have hcount : n = (imageWords (hi ++ lo) rest).length := by
    rw [hn, imageWords_length, capacity]
    rfl
  have hword : BitVec.ofNat 16 (hi ++ lo : Word).toNat = hi ++ lo := BitVec.ofNat_toNat 16 _
  obtain rfl : (load ⟨hi :: lo :: rest, false⟩ s).1 = res := congrArg Prod.fst hload
  obtain rfl : (load ⟨hi :: lo :: rest, false⟩ s).2 = t := congrArg Prod.snd hload
  refine ⟨?result, fun i hlt => ?word, fun a ha => ?outside, rfl⟩
  case result => rw [load_readable, hword, hcount]
  case word =>
    rw [BitVec.ofNat_add, hword, rawRead_load (hcount ▸ hlt), toNat_bigEndian]
  case outside =>
    rw [hcount] at ha
    exact rawRead_load_outside s ha

/-! ### Several images -/

theorem eq_add_ofNat {a b : Word} {i : Nat} (h : a.toNat = b.toNat + i) : a = b + BitVec.ofNat 16 i := by
  apply BitVec.eq_of_toNat_eq
  rw [BitVec.toNat_add, BitVec.toNat_ofNat, Nat.add_mod_mod, ← h, Nat.mod_eq_of_lt a.isLt]

theorem loadAll_pair (first second : ImageStream) (s : State) :
    (loadAll [first, second] s).2 = (load second (load first s).2).2 := rfl

/-- Settles O58: an address of the second image's range is its origin plus the place of one of its words, and `rawRead_load`
gives that word from either state. -/
theorem laterImageWins : Obligations.LaterImageWins := by
  intro first hi lo rest s a hfrom hto
  rw [← toNat_bigEndian] at hfrom hto
  obtain ⟨i, hplace⟩ := Nat.exists_eq_add_of_le hfrom
  have haddr : a = hi ++ lo + BitVec.ofNat 16 i := eq_add_ofNat hplace
  have hlt : i < (imageWords (hi ++ lo) rest).length := by
    have hbound := a.isLt
    rw [imageWords_length, capacity, Config.memWords]
    omega
  rw [loadAll_pair, haddr, rawRead_load hlt, rawRead_load hlt]

/-! ### `reset()` -/

/-- Settles O59: but for the input it keeps, the state is the start of a session with the machine's parameters (O48). -/
theorem hostResetState : Obligations.HostResetState := by
  intro s
  obtain ⟨hreg, hpc, hcond, hmem, hrun, hout, hparams⟩ := resetState.1 s.params
  exact ⟨hreg, hpc, hcond, hmem, hout, hrun, rfl, hparams⟩

end Sys2Proof.Machine
end
